-- ==== Sys2Proof/Word.lean ====
section
/-! DEFINITION. The word types of the octornado CPU and the three small sets of names that every later file uses:
opcode names, condition names, and the two forms of an R-format operand B (spec/00_scope.md R6, R8). -/

namespace Sys2Proof

/-- A register, a memory cell, an address, the instruction pointer: 8 bits (R6). -/
abbrev Byte := BitVec 8

/-- The number of a general register, 0 to 7 (R12). -/
abbrev RegNum := BitVec 3

/-- The accumulator `out` of one step: 9 bits (R6, R20). -/
abbrev Acc := BitVec 9

/-- A name of the assembler's source text: a mnemonic, a label, a constant (R73). -/
abbrev Ident := List Char

/-- The 21 opcode names of R57, in the order in which R57 lists them. -/
inductive OpName
  | add | addc | sub | subc | cmp | cmpc
  | xor | nand | or | and | shr | shrc
  | jmp | ld | st | rand | halt | nop
  | jmpi | sti | imm
  deriving DecidableEq, Repr

/-- The six jump conditions of R59, in the order in which R59 lists them. -/
inductive Cond
  | always | jeq | jgt | jge | jgts | jges
  deriving DecidableEq, Repr

/-- Operand B of an R-format instruction (R51, R54): a register, or a literal, which the encoding admits from -8 to 7. -/
inductive OperandB
  | reg (r : RegNum)
  | lit (v : Int)
  deriving DecidableEq, Repr

/-- The opcode names as a list, in R57's order. -/
def OpName.all : List OpName :=
  [.add, .addc, .sub, .subc, .cmp, .cmpc, .xor, .nand, .or, .and, .shr, .shrc,
   .jmp, .ld, .st, .rand, .halt, .nop, .jmpi, .sti, .imm]

/-- The condition names as a list, in R59's order. -/
def Cond.all : List Cond := [.always, .jeq, .jgt, .jge, .jgts, .jges]

/-- The place of an opcode name in R57's list. -/
def OpName.index : OpName → Fin 21
  | .add => 0 | .addc => 1 | .sub => 2 | .subc => 3 | .cmp => 4 | .cmpc => 5
  | .xor => 6 | .nand => 7 | .or => 8 | .and => 9 | .shr => 10 | .shrc => 11
  | .jmp => 12 | .ld => 13 | .st => 14 | .rand => 15 | .halt => 16 | .nop => 17
  | .jmpi => 18 | .sti => 19 | .imm => 20

/-- The place of a condition name in R59's list. -/
def Cond.index : Cond → Fin 6
  | .always => 0 | .jeq => 1 | .jgt => 2 | .jge => 3 | .jgts => 4 | .jges => 5

/-- The three opcodes whose record is I-format (R57, R58). -/
def OpName.isImmediate : OpName → Bool
  | .jmpi | .sti | .imm => true
  | .add | .addc | .sub | .subc | .cmp | .cmpc | .xor | .nand | .or | .and | .shr | .shrc
  | .jmp | .ld | .st | .rand | .halt | .nop => false

end Sys2Proof
end

