-- ==== Sys2Proof/Records.lean ====
section
/-! DEFINITION. What passes the boundary of the two hardware blocks: the encoder's Instruction Record with its operand
tags and its failures (spec/30_encoding.md R50 to R53, R60 to R62), and the decoder's two errors (R170, R171). -/

namespace Sys2Proof

/-- An operand of an Instruction Record with its tag (R8, R50). `int` is the document's signed 32-bit integer, `cond` the
condition code that stands in a jump's destination position. -/
inductive Operand
  | reg (r : RegNum)
  | int (v : Int)
  | label (name : Ident)
  | bare (name : Ident)
  | cond (code : BitVec 3)
  deriving DecidableEq, Repr

/-- One Instruction Record, the encoder's input (R50): R-format (R51), I-format (R52) or raw byte (R53). The opcode is
already a number (R2, R50); the encoder does not check that it belongs to the record's shape (R63). -/
inductive Record
  | rfmt (opnum : BitVec 5) (dst a b : Operand)
  | ifmt (opnum : BitVec 5) (dst value : Operand)
  | raw (value : Operand)
  deriving DecidableEq, Repr

/-- The encoder's failures (R60, R61, R62). -/
inductive EncodeError
  | badDestination
  | badOperandA
  | badOperandB
  | literalOutOfRange
  | valueNotInteger
  deriving DecidableEq, Repr

/-- The output ports of the encoder block (R50). A byte that `len` does not cover is not valid, and is `none`. -/
structure EncoderPorts where
  len : BitVec 2
  byte0 : Option Byte
  byte1 : Option Byte
  err : Option EncodeError
  deriving DecidableEq, Repr

/-- Why a fetched word is no instruction (R65): an undefined opcode number, with the high byte (R170), or an
unrecognized condition code in a jump (R171). -/
inductive DecodeError
  | illegalOpcode (hi : Byte)
  | illegalCondition (code : BitVec 3)
  deriving DecidableEq, Repr

end Sys2Proof
end

