-- ==== Sys2Proof/Config.lean ====
section
/-! DEFINITION. The parameters the spec leaves open (spec/00_scope.md R7) as one structure `Config`, the peripheral
devices' types (spec/60_exceptions.md R180 to R183), and the FREE VALUES: opaque constants about which nothing can be
proved, one for every value the spec does not fix. The defaults of R7 are in Sys2Proof/Machine/Defaults.lean. -/

namespace Sys2Proof

/-- Parameter `WORD_ORDER` (R31): which byte of the instruction word stands at the lower address. -/
inductive WordOrder
  | highFirst
  | lowFirst
  deriving DecidableEq, Repr

/-- Parameter `OVF_B_SOURCE` (R98): what the overflow formula takes as `b` in SUB, SUBC, CMP, CMPC. -/
inductive OvfBSource
  | inverted
  | raw
  deriving DecidableEq, Repr

/-- Parameter `SHR_WIDE` (R132): what SHR and SHRC do with bit 8 of `a + b`. -/
inductive ShrWide
  | dropped
  | kept
  deriving DecidableEq, Repr

/-- The scalar parameters of R7. `opmap` gives the opcode numbers in the order of `OpName.index` (`OPMAP`), `condmap` the
condition codes in the order of `Cond.index` (`CONDMAP`). `DEVICES` is a field of State beside the devices' own private
state, and `RAND` is the free value `Config.draw`. -/
structure Config where
  opmap : Vector (BitVec 5) 21
  immLo : BitVec 5
  immHi : BitVec 5
  condmap : Vector (BitVec 3) 6
  wordOrder : WordOrder
  ovfBSource : OvfBSource
  shrWide : ShrWide
  logicBit8 : Bool
  fetchViaDevices : Bool
  deriving DecidableEq, Repr

/-- The opcode number `OPMAP` gives a name (R57). -/
def Config.opNumber (c : Config) (o : OpName) : BitVec 5 := c.opmap[o.index]

/-- The condition code `CONDMAP` gives a name (R59). -/
def Config.condCode (c : Config) (k : Cond) : BitVec 3 := c.condmap[k.index]

/-- A grid of the pixel buffer, `frame[x][y]`: 16 columns by 15 rows (R183). -/
abbrev Frame := Vector (Vector Bool 15) 16

/-- The private state of the pixel-buffer device (R183): the back-buffer, and the frame last displayed (none before the
first flush, since the spec states no frame for that time). -/
structure Pixels where
  back : Frame
  shown : Option Frame
  deriving DecidableEq, Repr, Inhabited

/-- One call of a device's interface (R180). -/
inductive DeviceCall
  | read
  | write (v : Byte)
  deriving DecidableEq, Repr

/-- A peripheral device with its private state (R180). `charOut` is the character-output device with the bytes written to
it, oldest first (R182, U7); `pixelBuffer` the pixel device (R183); `other` any device of a platform whose inside the
spec does not give: its private state is the record of its calls, and what a `read()` answers is a fresh draw (R180, D22;
log entry 11). -/
inductive Device
  | charOut (printed : List Byte)
  | pixelBuffer (p : Pixels)
  | other (id : Nat) (calls : List DeviceCall)
  deriving DecidableEq, Repr

/-- One entry of the ordered registration list `DEVICES` (R23): an address and the device there. DESIGN CHOICE, unsafe (log
entry 31): the spec does not say whether one device may stand in two entries and share its private state (R4, R23, R39);
here every entry has a device and a private state of its own, so that a device at two addresses cannot be expressed. -/
structure Port where
  addr : Byte
  dev : Device
  deriving DecidableEq, Repr

/-- FREE VALUE (parameter `RAND`, R161, D21, U4; and R180, D22, U5): the n-th free byte of a run. A RAND, or a `read()` of
a device (the spec describes the `read()` of none), takes the byte of an index that no earlier draw of the run took. -/
opaque Config.draw : Nat → Byte

/-- FREE VALUE (U6): the back-buffer after a write that names row 15, which the grid does not have. -/
opaque Config.freeFrame : Nat → Frame

/-- FREE VALUE (U5): the pixel device's private state after a `read()`, which the spec does not describe. -/
opaque Config.pixelsAfterRead : Nat → Pixels → Pixels

/-- FREE VALUE (U5): the character device's output stream after a `read()`, which the spec does not describe. -/
opaque Config.printedAfterRead : Nat → List Byte → List Byte

/-- FREE VALUE (R60 to R62): which failure the encoder reports for a record that meets the conditions of several. -/
opaque Config.failureChoice : Record → Nat

end Sys2Proof
end

