-- ==== Sys2Proof/Machine/Defaults.lean ====
section
/-! DEFINITION. The default values of the open parameters (spec/00_scope.md R7, spec/92_eei_decisions.md), each the
spec's decision and none the source's, and the reference configuration of the devices (R181). -/

namespace Sys2Proof

/-- The defaults of R7: `OPMAP` of R57 (D1), `IMM_LO..IMM_HI` of R58 (D2), `CONDMAP` of R59 (D3), `WORD_ORDER` of R31 (D4),
`OVF_B_SOURCE` of R98 (D8), `SHR_WIDE` of R132 (D9), `LOGIC_BIT8` of R124 (D10), `FETCH_VIA_DEVICES` of R38 (D14). -/
def Config.default : Config where
  opmap := #v[0, 1, 2, 3, 4, 5, 6, 7, 8, 9, 10, 11, 12, 13, 14, 15, 16, 17, 18, 19, 20]
  immLo := 18
  immHi := 20
  condmap := #v[0, 1, 2, 3, 4, 5]
  wordOrder := .highFirst
  ovfBSource := .inverted
  shrWide := .dropped
  logicBit8 := false
  fetchViaDevices := false

namespace Machine

/-- A grid with no pixel set (R183: the back-buffer is "initially all clear"). -/
def clearFrame : Frame := Vector.replicate 16 (Vector.replicate 15 false)

/-- The reference configuration (R181): the character-output device at 254, the pixel buffer at 253, each in its initial
private state (R190). -/
def referenceDevices : List Port :=
  [⟨254, .charOut []⟩, ⟨253, .pixelBuffer ⟨clearFrame, none⟩⟩]

end Machine

end Sys2Proof
end

