-- ==== Sys2Proof/Syntax.lean ====
section
/-! DEFINITION. The instructions: one constructor for each row of spec/opcode_table.json, 31 in all. -/

namespace Sys2Proof

/-- The instructions of the octornado ISA. The six conditions of JMP and of JMPI are a row each in the opcode table; the
immediate jumps carry the spelling with a final `i` (R89). Fields that the CPU ignores (R66) are no part of an
instruction, except CMPC's destination, which its source form names (R76). -/
inductive Instr
  /-- R110 -/
  | add (d a : RegNum) (b : OperandB)
  /-- R111 -/
  | addc (d a : RegNum) (b : OperandB)
  /-- R112 -/
  | sub (d a : RegNum) (b : OperandB)
  /-- R113 -/
  | subc (d a : RegNum) (b : OperandB)
  /-- R114 -/
  | cmp (a : RegNum) (b : OperandB)
  /-- R115 -/
  | cmpc (d a : RegNum) (b : OperandB)
  /-- R120 -/
  | xor (d a : RegNum) (b : OperandB)
  /-- R121 -/
  | nand (d a : RegNum) (b : OperandB)
  /-- R122 -/
  | or (d a : RegNum) (b : OperandB)
  /-- R123 -/
  | and (d a : RegNum) (b : OperandB)
  /-- R130 -/
  | shr (d a : RegNum) (b : OperandB)
  /-- R131 -/
  | shrc (d a : RegNum) (b : OperandB)
  /-- R140, condition ALWAYS -/
  | jmp (a : RegNum) (b : OperandB)
  /-- R140, condition JEQ -/
  | jeq (a : RegNum) (b : OperandB)
  /-- R140, condition JGT -/
  | jgt (a : RegNum) (b : OperandB)
  /-- R140, condition JGE -/
  | jge (a : RegNum) (b : OperandB)
  /-- R140, condition JGTS -/
  | jgts (a : RegNum) (b : OperandB)
  /-- R140, condition JGES -/
  | jges (a : RegNum) (b : OperandB)
  /-- R150 -/
  | ld (d : RegNum)
  /-- R151 -/
  | st (a : RegNum) (b : OperandB)
  /-- R161 -/
  | rand (d : RegNum)
  /-- R162 -/
  | halt
  /-- R163 -/
  | nop
  /-- R141, condition ALWAYS -/
  | jmpi (target : Byte)
  /-- R141, condition JEQ -/
  | jeqi (target : Byte)
  /-- R141, condition JGT -/
  | jgti (target : Byte)
  /-- R141, condition JGE -/
  | jgei (target : Byte)
  /-- R141, condition JGTS -/
  | jgtsi (target : Byte)
  /-- R141, condition JGES -/
  | jgesi (target : Byte)
  /-- R152 -/
  | sti (n : Byte)
  /-- R160 -/
  | imm (d : RegNum) (n : Byte)
  deriving DecidableEq, Repr

end Sys2Proof
end

