-- ==== Sys2Proof/WellFormed.lean ====
section
/-! DEFINITION. Which terms stand for something of the spec: an instruction the encoding admits (a literal operand B from
-8 to 7, R51, R54), a record whose integers have 32 bits (R8), a configuration within the limits of R7, R57, R58, R59. -/

namespace Sys2Proof

/-- A literal operand B lies in -8..7 (R54). -/
def OperandB.wf : OperandB → Bool
  | .reg _ => true
  | .lit v => decide (-8 ≤ v) && decide (v ≤ 7)

/-- The instruction has an encoding: its operand B, where it has one, is well formed. -/
def Instr.wf : Instr → Bool
  | .add _ _ b | .addc _ _ b | .sub _ _ b | .subc _ _ b | .cmpc _ _ b => b.wf
  | .xor _ _ b | .nand _ _ b | .or _ _ b | .and _ _ b | .shr _ _ b | .shrc _ _ b => b.wf
  | .cmp _ b | .st _ b => b.wf
  | .jmp _ b | .jeq _ b | .jgt _ b | .jge _ b | .jgts _ b | .jges _ b => b.wf
  | .ld _ | .rand _ | .halt | .nop => true
  | .jmpi _ | .jeqi _ | .jgti _ | .jgei _ | .jgtsi _ | .jgesi _ | .sti _ | .imm _ _ => true

/-- The integer has 32 bits, signed: from -2147483648 to 2147483647 (R8, R71). -/
def int32 : Int → Bool
  | .ofNat n => decide (n < 2147483648)
  | .negSucc n => decide (n < 2147483648)

/-- An `Int` operand is a signed 32-bit integer (R8, R71). -/
def Operand.wf : Operand → Bool
  | .int v => int32 v
  | .reg _ | .label _ | .bare _ | .cond _ => true

/-- Every operand of the record is one. -/
def Record.wf : Record → Bool
  | .rfmt _ dst a b => dst.wf && a.wf && b.wf
  | .ifmt _ dst v => dst.wf && v.wf
  | .raw v => v.wf

/-- `OPMAP` gives no two names one number (R57, D1). -/
def Config.opmapInjective (c : Config) : Bool :=
  OpName.all.all fun o => OpName.all.all fun p => o == p || c.opNumber o != c.opNumber p

/-- `CONDMAP` gives no two names one code (R59, D3). -/
def Config.condmapInjective (c : Config) : Bool :=
  Cond.all.all fun j => Cond.all.all fun k => j == k || c.condCode j != c.condCode k

/-- Exactly JMPI, STI and IMM of the defined opcodes lie in `IMM_LO..IMM_HI` (R58, D2). -/
def Config.immRangeExact (c : Config) : Bool :=
  OpName.all.all fun o =>
    (decide (c.immLo ≤ c.opNumber o) && decide (c.opNumber o ≤ c.immHi)) == o.isImmediate

/-- The configuration meets the constraints of D1, D2 and D3. -/
def Config.wf (c : Config) : Bool := c.opmapInjective && c.condmapInjective && c.immRangeExact

end Sys2Proof
end

