-- ==== Sys2Proof/Decode.lean ====
section
/-! DEFINITION. Decoding of an instruction word (spec/40_cycle_and_flags.md R92 to R95, spec/30_encoding.md R57 to R59, R65,
R66), the encoding of an instruction (R51, R52, R54, R67), and the ENCODER BLOCK from Instruction Records to bytes or a
failure (R50 to R55, R60 to R63). Everything is written over the parameters of `Config` (R7). -/

namespace Sys2Proof

/-! ### Fields of a word (R92, R93, R94) -/

/-- `op = hi[7:3]` (R92). -/
def opcodeField (hi : Byte) : BitVec 5 := hi.extractLsb' 3 5

/-- `d = hi[2:0]`: a destination register or a condition code (R92). -/
def destField (hi : Byte) : BitVec 3 := hi.extractLsb' 0 3

/-- `sel = lo[7]` (R94). -/
def selField (lo : Byte) : Bool := lo.getLsbD 7

/-- `ra = lo[6:4]` (R94). -/
def regAField (lo : Byte) : RegNum := lo.extractLsb' 4 3

/-- `bf = lo[3:0]` (R94). -/
def bField (lo : Byte) : BitVec 4 := lo.extractLsb' 0 4

/-- Operand B of an R-format word (R94): register `bf mod 8` when `sel` is 0, so that `lo[3]` is ignored (R66), and the
4-bit two's-complement literal when `sel` is 1. -/
def decodeB (lo : Byte) : OperandB :=
  if selField lo then .lit (bField lo).toInt else .reg ((bField lo).setWidth 3)

/-! ### Decode -/

/-- The opcode name that has this number, if any (R57, R92). -/
def Config.opOf (c : Config) (n : BitVec 5) : Option OpName :=
  OpName.all.find? fun o => c.opNumber o == n

/-- The condition that has this code, if any (R59, R95). -/
def Config.condOf (c : Config) (d : BitVec 3) : Option Cond :=
  Cond.all.find? fun k => c.condCode k == d

/-- Does the opcode number lie in the immediate-opcode range `IMM_LO..IMM_HI` (R58)? -/
def Config.inImmRange (c : Config) (n : BitVec 5) : Bool := decide (c.immLo ≤ n) && decide (n ≤ c.immHi)

/-- The JMP instruction with this condition. -/
def regJump (k : Cond) (a : RegNum) (b : OperandB) : Instr :=
  match k with
  | .always => .jmp a b
  | .jeq => .jeq a b
  | .jgt => .jgt a b
  | .jge => .jge a b
  | .jgts => .jgts a b
  | .jges => .jges a b

/-- The JMPI instruction with this condition. -/
def immJump (k : Cond) (target : Byte) : Instr :=
  match k with
  | .always => .jmpi target
  | .jeq => .jeqi target
  | .jgt => .jgti target
  | .jge => .jgei target
  | .jgts => .jgtsi target
  | .jges => .jgesi target

/-- R-format decode (R94). An opcode that a configuration outside D2 places outside the immediate range has no R-format
meaning and is an illegal opcode; no well-formed configuration has one. -/
def decodeR (c : Config) (o : OpName) (hi lo : Byte) : Except DecodeError Instr :=
  let d := destField hi
  let a := regAField lo
  let b := decodeB lo
  match o with
  | .add => .ok (.add d a b)
  | .addc => .ok (.addc d a b)
  | .sub => .ok (.sub d a b)
  | .subc => .ok (.subc d a b)
  | .cmp => .ok (.cmp a b)
  | .cmpc => .ok (.cmpc d a b)
  | .xor => .ok (.xor d a b)
  | .nand => .ok (.nand d a b)
  | .or => .ok (.or d a b)
  | .and => .ok (.and d a b)
  | .shr => .ok (.shr d a b)
  | .shrc => .ok (.shrc d a b)
  | .jmp =>
    match c.condOf d with
    | some k => .ok (regJump k a b)
    | none => .error (.illegalCondition d)
  | .ld => .ok (.ld d)
  | .st => .ok (.st a b)
  | .rand => .ok (.rand d)
  | .halt => .ok .halt
  | .nop => .ok .nop
  | .jmpi | .sti | .imm => .error (.illegalOpcode hi)

/-- I-format decode (R93): the low byte is the immediate. The opcodes that have no I-format meaning reach this only under
a configuration outside D2 and are illegal there. -/
def decodeI (c : Config) (o : OpName) (hi lo : Byte) : Except DecodeError Instr :=
  let d := destField hi
  match o with
  | .jmpi =>
    match c.condOf d with
    | some k => .ok (immJump k lo)
    | none => .error (.illegalCondition d)
  | .sti => .ok (.sti lo)
  | .imm => .ok (.imm d lo)
  | .add | .addc | .sub | .subc | .cmp | .cmpc | .xor | .nand | .or | .and | .shr | .shrc
  | .jmp | .ld | .st | .rand | .halt | .nop => .error (.illegalOpcode hi)

/-- Decode a word from its high and its low byte (R92 to R95). The opcode is tested first, the condition code only for
JMP and JMPI (R175, D18). -/
def decode (c : Config) (hi lo : Byte) : Except DecodeError Instr :=
  match c.opOf (opcodeField hi) with
  | none => .error (.illegalOpcode hi)
  | some o => if c.inImmRange (opcodeField hi) then decodeI c o hi lo else decodeR c o hi lo

/-- The two bytes of a word in the order of their addresses (R31): the byte at the lower address first. -/
def orderBytes (w : WordOrder) (hi lo : Byte) : Byte × Byte :=
  match w with
  | .highFirst => (hi, lo)
  | .lowFirst => (lo, hi)

/-! ### Encode -/

/-- The opcode of an instruction. -/
def Instr.opName : Instr → OpName
  | .add .. => .add
  | .addc .. => .addc
  | .sub .. => .sub
  | .subc .. => .subc
  | .cmp .. => .cmp
  | .cmpc .. => .cmpc
  | .xor .. => .xor
  | .nand .. => .nand
  | .or .. => .or
  | .and .. => .and
  | .shr .. => .shr
  | .shrc .. => .shrc
  | .jmp .. => .jmp
  | .jeq .. => .jmp
  | .jgt .. => .jmp
  | .jge .. => .jmp
  | .jgts .. => .jmp
  | .jges .. => .jmp
  | .ld .. => .ld
  | .st .. => .st
  | .rand .. => .rand
  | .halt => .halt
  | .nop => .nop
  | .jmpi .. => .jmpi
  | .jeqi .. => .jmpi
  | .jgti .. => .jmpi
  | .jgei .. => .jmpi
  | .jgtsi .. => .jmpi
  | .jgesi .. => .jmpi
  | .sti .. => .sti
  | .imm .. => .imm

/-- `hi = (opnum << 3) | D` (R51, R52). -/
def packHi (opnum : BitVec 5) (d : BitVec 3) : Byte := opnum.setWidth 8 <<< 3 ||| d.setWidth 8

/-- `lo = (sel << 7) | (A << 4) | bfield` (R51). -/
def packLo (sel : Bool) (a : RegNum) (bf : BitVec 4) : Byte :=
  (BitVec.ofBool sel).setWidth 8 <<< 7 ||| a.setWidth 8 <<< 4 ||| bf.setWidth 8

/-- The low byte of an R-format word (R54): a register B has `sel = 0` and `bfield = n`, a literal has `sel = 1` and its
4-bit two's complement. -/
def packOperands (a : RegNum) : OperandB → Byte
  | .reg r => packLo false a (r.setWidth 4)
  | .lit v => packLo true a (BitVec.ofInt 4 v)

/-- The canonical word of an instruction as high byte and low byte (R51, R52, R54, R67): ignored fields are zero. -/
def encode (c : Config) (i : Instr) : Byte × Byte :=
  let r (o : OpName) (d : BitVec 3) (a : RegNum) (b : OperandB) : Byte × Byte :=
    (packHi (c.opNumber o) d, packOperands a b)
  let im (o : OpName) (d : BitVec 3) (n : Byte) : Byte × Byte := (packHi (c.opNumber o) d, n)
  match i with
  | .add d a b => r .add d a b
  | .addc d a b => r .addc d a b
  | .sub d a b => r .sub d a b
  | .subc d a b => r .subc d a b
  | .cmp a b => r .cmp 0 a b
  | .cmpc d a b => r .cmpc d a b
  | .xor d a b => r .xor d a b
  | .nand d a b => r .nand d a b
  | .or d a b => r .or d a b
  | .and d a b => r .and d a b
  | .shr d a b => r .shr d a b
  | .shrc d a b => r .shrc d a b
  | .jmp a b => r .jmp (c.condCode .always) a b
  | .jeq a b => r .jmp (c.condCode .jeq) a b
  | .jgt a b => r .jmp (c.condCode .jgt) a b
  | .jge a b => r .jmp (c.condCode .jge) a b
  | .jgts a b => r .jmp (c.condCode .jgts) a b
  | .jges a b => r .jmp (c.condCode .jges) a b
  | .ld d => r .ld d 0 (.reg 0)
  | .st a b => r .st 0 a b
  | .rand d => r .rand d 0 (.reg 0)
  | .halt => r .halt 0 0 (.reg 0)
  | .nop => r .nop 0 0 (.reg 0)
  | .jmpi t => im .jmpi (c.condCode .always) t
  | .jeqi t => im .jmpi (c.condCode .jeq) t
  | .jgti t => im .jmpi (c.condCode .jgt) t
  | .jgei t => im .jmpi (c.condCode .jge) t
  | .jgtsi t => im .jmpi (c.condCode .jgts) t
  | .jgesi t => im .jmpi (c.condCode .jges) t
  | .sti n => im .sti 0 n
  | .imm d n => im .imm d n

/-- The bytes of an instruction in memory, the lower address first (R31). -/
def encodeBytes (c : Config) (i : Instr) : List Byte :=
  let w := encode c i
  let p := orderBytes c.wordOrder w.1 w.2
  [p.1, p.2]

/-- The low byte of an R-format word with its ignored bit cleared: `lo[3]` when `sel` is 0 (R66, R67). -/
def canonicalLo (lo : Byte) : Byte := if selField lo then lo else lo &&& 0xF7

/-- The canonical alias of a word (R66, R67): every ignored bit zero. CMPC's destination field is ignored by the CPU and
named by its source form (R76), so it stands. -/
def canonicalWord (c : Config) (hi lo : Byte) : Byte × Byte :=
  match c.opOf (opcodeField hi) with
  | none => (hi, lo)
  | some .cmp | some .st => (hi &&& 0xF8, canonicalLo lo)
  | some .ld | some .rand => (hi, 0)
  | some .halt | some .nop => (hi &&& 0xF8, 0)
  | some .sti => (hi &&& 0xF8, lo)
  | some .jmpi | some .imm => (hi, lo)
  | some .add | some .addc | some .sub | some .subc | some .cmpc | some .xor | some .nand
  | some .or | some .and | some .shr | some .shrc | some .jmp => (hi, canonicalLo lo)

/-! ### The encoder block (R50) -/

/-- Is the operand tagged `Reg`? -/
def Operand.isReg : Operand → Bool
  | .reg _ => true
  | .int _ | .label _ | .bare _ | .cond _ => false

/-- Is the operand tagged `Cond`? -/
def Operand.isCond : Operand → Bool
  | .cond _ => true
  | .int _ | .label _ | .bare _ | .reg _ => false

/-- The three bits a destination operand contributes (R51, R52); used only for an accepted one. -/
def Operand.dstBits : Operand → BitVec 3
  | .reg r => r
  | .cond k => k
  | .int _ | .label _ | .bare _ => 0

/-- The failures of operand B of an R-format record (R60). -/
def bFailures : Operand → List EncodeError
  | .reg _ => []
  | .int v => if -8 ≤ v ∧ v ≤ 7 then [] else [.literalOutOfRange]
  | .label _ | .bare _ | .cond _ => [.badOperandB]

/-- The failures of a value that must be an integer (R61, R62). -/
def valueFailures : Operand → List EncodeError
  | .int _ => []
  | .reg _ | .label _ | .bare _ | .cond _ => [.valueNotInteger]

/-- Does an I-format destination have the expected tag (R61): `Cond` for JMPI, `Reg` for IMM and STI? For any other opcode
number (R63) the spec names no tag to expect: either of the two that carry a 3-bit value will do. -/
def immDstOk (c : Config) (opnum : BitVec 5) (dst : Operand) : Bool :=
  if opnum = c.opNumber .jmpi then dst.isCond
  else if opnum = c.opNumber .imm ∨ opnum = c.opNumber .sti then dst.isReg
  else dst.isReg || dst.isCond

/-- Every failure condition of R60, R61 and R62 that the record meets. -/
def failures (c : Config) : Record → List EncodeError
  | .rfmt opnum dst a b =>
    (if (if opnum = c.opNumber .jmp then dst.isCond else dst.isReg) then [] else [.badDestination])
      ++ (if a.isReg then [] else [.badOperandA]) ++ bFailures b
  | .ifmt opnum dst v =>
    (if immDstOk c opnum dst then [] else [.badDestination]) ++ valueFailures v
  | .raw v => valueFailures v

/-- `v mod 256` (R53, R55): the mathematical modulus of a signed integer. -/
def Operand.valueByte : Operand → Byte
  | .int v => BitVec.ofInt 8 v
  | .reg _ | .label _ | .bare _ | .cond _ => 0

/-- The operand fields of the low byte of an accepted R-format record (R51, R54). -/
def recordLo : Operand → Operand → Byte
  | .reg a, .reg r => packOperands a (.reg r)
  | .reg a, .int v => packOperands a (.lit v)
  | _, _ => 0

/-- The bytes of an accepted record, the lower address first (R51, R52, R53, R31). The opcode number is packed as it
stands, whatever the record's shape (R63). -/
def recordBytes (c : Config) : Record → List Byte
  | .rfmt opnum dst a b =>
    let p := orderBytes c.wordOrder (packHi opnum dst.dstBits) (recordLo a b)
    [p.1, p.2]
  | .ifmt opnum dst v =>
    let p := orderBytes c.wordOrder (packHi opnum dst.dstBits) v.valueByte
    [p.1, p.2]
  | .raw v => [v.valueByte]

/-- The failure reported when a record meets some conditions: the one it meets, or a FREE choice among several. -/
def reportedFailure (r : Record) (e : EncodeError) (es : List EncodeError) : EncodeError :=
  match es with
  | [] => e
  | e' :: es' => (e :: e' :: es').getD (Config.failureChoice r % (e :: e' :: es').length) e

/-- The encoder block (R50): the record's bytes, or a failure and no byte (R60, R62). -/
def encodeRecord (c : Config) (r : Record) : Except EncodeError (List Byte) :=
  match failures c r with
  | [] => .ok (recordBytes c r)
  | e :: es => .error (reportedFailure r e es)

/-- The encoder block as R50's output ports: on failure `len` is 0 and no byte is valid. -/
def encoderPorts (c : Config) (r : Record) : EncoderPorts :=
  match encodeRecord c r with
  | .ok bs => ⟨BitVec.ofNat 2 bs.length, bs[0]?, bs[1]?, none⟩
  | .error e => ⟨0, none, none, some e⟩

/-- The record that stands for an instruction (R51, R52, R78, R87). -/
def Instr.toRecord (c : Config) (i : Instr) : Record :=
  let b : OperandB → Operand := fun x => match x with
    | .reg r => .reg r
    | .lit v => .int v
  let n : Byte → Operand := fun x => .int x.toNat
  let r (o : OpName) (d : RegNum) (a : RegNum) (x : OperandB) : Record :=
    .rfmt (c.opNumber o) (.reg d) (.reg a) (b x)
  let j (k : Cond) (a : RegNum) (x : OperandB) : Record :=
    .rfmt (c.opNumber .jmp) (.cond (c.condCode k)) (.reg a) (b x)
  let ji (k : Cond) (t : Byte) : Record := .ifmt (c.opNumber .jmpi) (.cond (c.condCode k)) (n t)
  match i with
  | .add d a x => r .add d a x
  | .addc d a x => r .addc d a x
  | .sub d a x => r .sub d a x
  | .subc d a x => r .subc d a x
  | .cmp a x => r .cmp 0 a x
  | .cmpc d a x => r .cmpc d a x
  | .xor d a x => r .xor d a x
  | .nand d a x => r .nand d a x
  | .or d a x => r .or d a x
  | .and d a x => r .and d a x
  | .shr d a x => r .shr d a x
  | .shrc d a x => r .shrc d a x
  | .jmp a x => j .always a x
  | .jeq a x => j .jeq a x
  | .jgt a x => j .jgt a x
  | .jge a x => j .jge a x
  | .jgts a x => j .jgts a x
  | .jges a x => j .jges a x
  | .ld d => r .ld d 0 (.reg 0)
  | .st a x => r .st 0 a x
  | .rand d => r .rand d 0 (.reg 0)
  | .halt => r .halt 0 0 (.reg 0)
  | .nop => r .nop 0 0 (.reg 0)
  | .jmpi t => ji .always t
  | .jeqi t => ji .jeq t
  | .jgti t => ji .jgt t
  | .jgei t => ji .jge t
  | .jgtsi t => ji .jgts t
  | .jgesi t => ji .jges t
  | .sti t => .ifmt (c.opNumber .sti) (.reg 0) (n t)
  | .imm d t => .ifmt (c.opNumber .imm) (.reg d) (n t)

/-! ### The host's numbering of a word -/

/-- The high and the low byte of a word numbered as spec/opcode_table.json numbers it (`hi << 8 | lo`); bits above `nbits`
are zero. -/
def tableBytes (nbits w : Nat) : Byte × Byte :=
  let v := w % 2 ^ nbits
  (BitVec.ofNat 8 (v / 256), BitVec.ofNat 8 v)

/-- The instruction that the decoder reads, under the default numbering, from a word numbered as the table numbers it. -/
def decodeTableWord (nbits w : Nat) : Option Instr :=
  let p := tableBytes nbits w
  match decode Config.default p.1 p.2 with
  | .ok i => some i
  | .error _ => none

end Sys2Proof
end

