-- ==== Sys2Proof/Machine/State.lean ====
section
/-! DEFINITION. The machine's state (spec/10_state.md R10 to R23), the reasons a step can stop (spec/60_exceptions.md R170
to R173), and the machine right after reset (R11, R190). -/

namespace Sys2Proof.Machine

/-- Memory (R21): the cells that do not hold `Memory.unlisted`, at strictly rising addresses. -/
abbrev Memory := List Host.Cell

/-- What a cell reads as that the list does not name: 0, the reset value of every memory byte (R11). -/
def Memory.unlisted : Byte := 0

/-- The four flags `C`, `S`, `Z`, `V` (R17). -/
structure Flags where
  carry : Bool
  sign : Bool
  zero : Bool
  overflow : Bool
  deriving DecidableEq, Repr

/-- The state of the machine. `regs`, `pc`, `flags`, `halted` and `mem` are the CPU's state, all of it (R10). `devices` is
the registration list with each device's private state (R22, R23, R180). `cfg` holds the open parameters of R7, which no
step changes, and `draws` the index of the next free value: these two are the model's own. -/
structure State where
  regs : Vector Byte 8
  pc : Byte
  flags : Flags
  halted : Bool
  mem : Memory
  devices : List Port
  cfg : Config
  draws : Nat
  deriving DecidableEq, Repr

/-- Why a step ends in a fault: the two fatal errors, which are all there are (R103, R173). Nothing of the state after a
fault can be read, so that no claim rests on the unspecified `pc` (R172, U3). -/
inductive Fault
  /-- Raised by `step` when the fetched high byte `hi` has no defined opcode number (R170). Safe: the spec's own fault. -/
  | illegalOpcode (hi : Byte)
  /-- Raised by `step` when a JMP or JMPI word has an unrecognized condition code (R171). Safe: the spec's own fault. -/
  | illegalCondition (code : BitVec 3)
  deriving DecidableEq, Repr

/-- Why a step has no meaning. -/
inductive Refusal
  /-- Raised by an arm of `exec` whose instruction has no meaning yet; no arm is such. Safe. -/
  | notModelled (mnemonic : String)
  deriving DecidableEq, Repr

/-- The machine right after reset (R11, R190): all CPU state zero, the reference devices in their initial private state
(R181, R183), the default parameters (R7). -/
def State.reset : State where
  regs := Vector.replicate 8 0
  pc := 0
  flags := ⟨false, false, false, false⟩
  halted := false
  mem := []
  devices := referenceDevices
  cfg := Config.default
  draws := 0

end Sys2Proof.Machine
end

