-- ==== Sys2Proof/Machine/Ops.lean ====
section
/-! DEFINITION. The named operations over registers, memory and devices (spec/20_memory.md R30 to R43, spec/60_exceptions.md
R170 to R183), fetching (R91), the raising of a fatal error (R172), and the host's operations load and reset (R190, R193). -/

namespace Sys2Proof.Machine

/-- What one instruction does to the state. -/
abbrev Result := Host.Outcome State Fault Refusal

/-! ### Registers, flags, pc (R12, R15, R17, R18) -/

/-- `x[r]` (R12): no register is hardwired. -/
def State.reg (s : State) (r : RegNum) : Byte := s.regs[r.toNat]'r.isLt

/-- `x[r] <- v` (R12). -/
def State.setReg (s : State) (r : RegNum) (v : Byte) : State := { s with regs := s.regs.set r.toNat v r.isLt }

/-- All four flags are written together (R99). -/
def State.setFlags (s : State) (f : Flags) : State := { s with flags := f }

/-- `pc <- target` (R15). -/
def State.setPc (s : State) (target : Byte) : State := { s with pc := target }

/-- `halted <- 1` (R18). -/
def State.setHalted (s : State) : State := { s with halted := true }

/-- `pc <- (pc + 2) mod 256`, before executing (R15, R90). -/
def State.advancePc (s : State) : State := s.setPc (s.pc + 2)

/-- `draw8()` (R8): the next free byte, and the state in which its index is used up. -/
def State.draw (s : State) : Byte × State := (Config.draw s.draws, { s with draws := s.draws + 1 })

/-! ### Raw memory (R21) -/

/-- `mem[a]`. -/
def Memory.read : Memory → Nat → Byte
  | [], _ => Memory.unlisted
  | (b, w) :: m, a => if a = b then w else Memory.read m a

/-- `mem[a] <- v`, in canonical form: a cell that comes to hold the unlisted value leaves the list. -/
def Memory.write : Memory → Nat → Byte → Memory
  | [], a, v => if v = Memory.unlisted then [] else [(a, v)]
  | (b, w) :: m, a, v =>
    if a < b then (if v = Memory.unlisted then (b, w) :: m else (a, v) :: (b, w) :: m)
    else if a = b then (if v = Memory.unlisted then m else (a, v) :: m)
    else (b, w) :: Memory.write m a v

/-- The canonical form from address `lo` on: addresses strictly rising and below 256, no entry at the unlisted value. -/
def Memory.wfFrom : Nat → Memory → Bool
  | _, [] => true
  | lo, (a, v) :: m =>
    decide (lo ≤ a) && decide (a < 256) && v != Memory.unlisted && Memory.wfFrom (a + 1) m

/-- The memory has its canonical form. -/
def Memory.wf (m : Memory) : Bool := Memory.wfFrom 0 m

/-- Copy bytes into raw memory from address `a` upward (R43). -/
def Memory.copy : Memory → Nat → List Byte → Memory
  | m, _, [] => m
  | m, a, v :: vs => Memory.copy (Memory.write m a v) (a + 1) vs

/-! ### Devices (R180 to R183) -/

/-- The pixel `(x, y)` of a grid set (R183). -/
def setPixel (f : Frame) (x : Fin 16) (y : Fin 15) : Frame := f.set x.val (f[x.val].set y.val true)

/-- The pixel device's `write(v)` (R183): 0xFF displays and then clears the back-buffer; any other byte sets pixel
`(v[7:4], v[3:0])`; row 15, which the grid lacks, leaves the back-buffer a free value (U6). -/
def writePixels (n : Nat) (v : Byte) (p : Pixels) : Pixels :=
  if v = 0xFF then { back := clearFrame, shown := some p.back }
  else if h : (v.extractLsb' 0 4).toNat < 15 then
    { p with back := setPixel p.back (v.extractLsb' 4 4).toFin ⟨(v.extractLsb' 0 4).toNat, h⟩ }
  else { p with back := Config.freeFrame n }

/-- A device's `read()` (R180): the byte it answers and its private state afterwards. No device's `read()` is described, of
the reference devices or of any other: the byte is a fresh draw (D22), and the private state may change (R182, R183, U5). -/
def readDevice (n : Nat) : Device → Byte × Device
  | .charOut printed => (Config.draw n, .charOut (Config.printedAfterRead n printed))
  | .pixelBuffer p => (Config.draw n, .pixelBuffer (Config.pixelsAfterRead n p))
  | .other id calls => (Config.draw n, .other id (calls ++ [.read]))

/-- A device's `write(v)` (R180): its private state afterwards. The character device prints `v`, that is, the byte is
appended to the output stream (R182). -/
def writeDevice (n : Nat) (v : Byte) : Device → Device
  | .charOut printed => .charOut (printed ++ [v])
  | .pixelBuffer p => .pixelBuffer (writePixels n v p)
  | .other id calls => .other id (calls ++ [.write v])

/-- A device's own initial state (R190). DESIGN CHOICE, unsafe (log entry 32): a reset empties the character device's record
of printed bytes and leaves the pixel device with no frame displayed (log entry 9); R190 speaks of the device's private
state, R182 of the host's output stream, and the spec does not say that the bytes already printed are forgotten. -/
def initialDevice : Device → Device
  | .charOut _ => .charOut []
  | .pixelBuffer _ => .pixelBuffer ⟨clearFrame, none⟩
  | .other id _ => .other id []

/-- `devices_at(a)` is not empty (R8). -/
def State.hasDevice (s : State) (a : Byte) : Bool := s.devices.any fun p => p.addr == a

/-- Call `read()` of every device at `a`, in registration order, each exactly once, and OR the bytes (R36, D35). `n` is
the index of the next free value; each call takes one. -/
def readPorts (a : Byte) : List Port → Nat → Byte × List Port × Nat
  | [], n => (0, [], n)
  | p :: ps, n =>
    if p.addr = a then
      let r := readDevice n p.dev
      let rest := readPorts a ps (n + 1)
      (r.1 ||| rest.1, { p with dev := r.2 } :: rest.2.1, rest.2.2)
    else
      let rest := readPorts a ps n
      (rest.1, p :: rest.2.1, rest.2.2)

/-- Call `write(v)` of every device at `a`, in registration order, each exactly once (R37, D35). -/
def writePorts (a v : Byte) : List Port → Nat → List Port × Nat
  | [], n => ([], n)
  | p :: ps, n =>
    if p.addr = a then
      let rest := writePorts a v ps (n + 1)
      ({ p with dev := writeDevice n v p.dev } :: rest.1, rest.2)
    else
      let rest := writePorts a v ps n
      (p :: rest.1, rest.2)

/-! ### The memory primitives (R36, R37, R38) -/

/-- `MemRead(a, 1)` (R36): through device dispatch; where a device stands, `mem[a]` is not read. -/
def State.memRead (s : State) (a : Byte) : Byte × State :=
  if s.hasDevice a then
    let r := readPorts a s.devices s.draws
    (r.1, { s with devices := r.2.1, draws := r.2.2 })
  else (s.mem.read a.toNat, s)

/-- `MemWrite(a, 1, v)` (R37): through device dispatch; where a device stands, `mem[a]` is not written. -/
def State.memWrite (s : State) (a v : Byte) : State :=
  if s.hasDevice a then
    let r := writePorts a v s.devices s.draws
    { s with devices := r.1, draws := r.2 }
  else { s with mem := s.mem.write a.toNat v }

/-- `Fetch(a)` (R38): raw memory and no device call, unless parameter `FETCH_VIA_DEVICES` is yes (D14). -/
def State.fetch (s : State) (a : Byte) : Byte × State :=
  if s.cfg.fetchViaDevices then s.memRead a else (s.mem.read a.toNat, s)

/-- What the fetch of one instruction word gives. -/
structure Fetched where
  hi : Byte
  lo : Byte
  after : State
  deriving DecidableEq, Repr

/-- Fetch the word at `pc` (R91): the byte at `pc`, then the byte at `(pc + 1) mod 256`; `WORD_ORDER` says which of them is
the high byte (R31). -/
def State.fetchWord (s : State) : Fetched :=
  let first := s.fetch s.pc
  let second := first.2.fetch (s.pc + 1)
  let w := orderBytes s.cfg.wordOrder first.1 second.1
  ⟨w.1, w.2, second.2⟩

/-! ### Fatal errors (R172) -/

/-- The fault a decode error is reported as (R170, R171). -/
def faultOf : DecodeError → Fault
  | .illegalOpcode hi => .illegalOpcode hi
  | .illegalCondition d => .illegalCondition d

/-- TAKING AN EXCEPTION, the one operation: a fatal error vectors nowhere, saves nothing and changes no mode; the run ends
in a fault outcome (R172). There is no return from it (R176): the way on is `State.applyReset` (R190). -/
def raise (e : DecodeError) : Result := .fault (faultOf e)

/-! ### The host's operations (R104) -/

/-- `reset` applied to a machine at any time (R190, D26): the CPU's state as after construction, each device in its own
initial state. The parameters and the registration are configuration and stay (R23); the free values already used stay
used. -/
def State.applyReset (s : State) : State :=
  { State.reset with
    devices := s.devices.map fun p => { p with dev := initialDevice p.dev }
    cfg := s.cfg
    draws := s.draws }

/-- `load(image)` (R43, R193): fails, and writes nothing, if the image has 256 bytes or more; else copies it to raw memory
from address 0, calls no device and touches nothing else. -/
def State.load (image : List Byte) (s : State) : Option State :=
  if 256 ≤ image.length then none else some { s with mem := s.mem.copy 0 image }

end Sys2Proof.Machine
end

