-- ==== Sys2Proof/Machine/Operands.lean ====
section
/-! DEFINITION. The operand values of a step (spec/40_cycle_and_flags.md R93, R94) and the accumulator `out` of every ALU
opcode (R101, spec/41_arithmetic.md, spec/42_logic.md, spec/43_shift.md). -/

namespace Sys2Proof.Machine

/-! ### Operands (R94) -/

/-- `sext_8` of the 4-bit field (R8, D5). -/
def sext8 (v : BitVec 4) : Byte := v.signExtend 8

/-- The value `b` of operand B (R94): a register's contents, or the literal as an 8-bit two's complement. -/
def State.operandB (s : State) : OperandB → Byte
  | .reg r => s.reg r
  | .lit v => BitVec.ofInt 8 v

/-! ### Accumulators (R101) -/

/-- The adder: `a + b + cin`, 9 bits (R110, R111, R140, R151). -/
def adder (a b : Byte) (cin : Bool) : Acc :=
  a.setWidth 9 + b.setWidth 9 + (BitVec.ofBool cin).setWidth 9

/-- The subtract group: `a + ~8(b) + cin`, with `cin` 1 in the plain forms (R112 to R117). -/
def subtracter (a b : Byte) (cin : Bool) : Acc := adder a (~~~b) cin

/-- The logic group: the 8-bit result, with parameter `LOGIC_BIT8` as bit 8 (R124). -/
def logicOut (bit8 : Bool) (result : Byte) : Acc :=
  (BitVec.ofBool bit8).setWidth 9 <<< 8 ||| result.setWidth 9

/-- The shifter behind the adder (R130 to R132): with `t = (a + b) mod 256`, `out` is `t[0]`, then bit 7, then `t[7:1]`. Bit 7
is `cin`, ORed with bit 8 of `a + b` when parameter `SHR_WIDE` keeps it. -/
def shifterOut (wide : ShrWide) (a b : Byte) (cin : Bool) : Acc :=
  let sum := adder a b false
  let t : Byte := sum.setWidth 8
  let bit7 := cin || (wide == .kept && sum.getLsbD 8)
  (BitVec.ofBool (t.getLsbD 0)).setWidth 9 <<< 8 ||| (BitVec.ofBool bit7).setWidth 9 <<< 7
    ||| (t >>> 1).setWidth 9

/-- `out mod 256`. -/
def lowByte (out : Acc) : Byte := out.setWidth 8

end Sys2Proof.Machine
end

