-- ==== Sys2Proof/Machine/Flags.lean ====
section
/-! DEFINITION. The flag update that ends every step (spec/40_cycle_and_flags.md R98, R99, R100), the jump conditions
(spec/44_jumps.md R142), and the three ways in which an instruction ends with its flags. -/

namespace Sys2Proof.Machine

/-- The four flags from `out`, `a` and `bflag` (R99): one formula for every opcode. -/
def flagsOf (out : Acc) (a bflag : Byte) : Flags where
  carry := out.getLsbD 8
  sign := out.getLsbD 7
  zero := lowByte out == 0
  overflow := a.getLsbD 7 == bflag.getLsbD 7 && a.getLsbD 7 != out.getLsbD 7

/-- `bflag` in the subtract group, by parameter `OVF_B_SOURCE` (R98). -/
def subBflag (p : OvfBSource) (b : Byte) : Byte :=
  match p with
  | .inverted => ~~~b
  | .raw => b

/-- `cond(d)` on the flags the previous step left (R142). -/
def condHolds (k : Cond) (f : Flags) : Bool :=
  match k with
  | .always => true
  | .jeq => f.zero
  | .jgt => f.carry && !f.zero
  | .jge => f.carry
  | .jgts => !f.zero && f.overflow == f.sign
  | .jges => f.overflow == f.sign

/-- End a step of an opcode that writes `out mod 256` to its destination register (R14, R99). -/
def finishInto (d : RegNum) (out : Acc) (a bflag : Byte) (s : State) : Result :=
  .next ((s.setReg d (lowByte out)).setFlags (flagsOf out a bflag))

/-- End a step of an ALU opcode that has made its write, or has none, with the flags of `out` (R99). -/
def finish (out : Acc) (a bflag : Byte) (s : State) : Result := .next (s.setFlags (flagsOf out a bflag))

/-- End a step of a non-ALU opcode: `a = b = bflag = out = 0` (R96, R100). -/
def finishNonAlu (s : State) : Result := finish 0 0 0 s

end Sys2Proof.Machine
end

