-- ==== Sys2Proof/Machine/Arithmetic.lean ====
section
/-! DEFINITION. ADD, ADDC, SUB, SUBC, CMP, CMPC (spec/41_arithmetic.md R110 to R117). -/

namespace Sys2Proof.Machine

/-- An addition into a register, with `cin` as carry-in; `bflag = b` (R98). -/
def addInto (d ra : RegNum) (b : OperandB) (cin : Bool) (s : State) : Result :=
  finishInto d (adder (s.reg ra) (s.operandB b) cin) (s.reg ra) (s.operandB b) s

/-- A subtraction into a register, with `cin` in place of the fixed 1 (R117). -/
def subInto (d ra : RegNum) (b : OperandB) (cin : Bool) (s : State) : Result :=
  finishInto d (subtracter (s.reg ra) (s.operandB b) cin) (s.reg ra)
    (subBflag s.cfg.ovfBSource (s.operandB b)) s

/-- A subtraction for its flags alone. -/
def compareFlags (ra : RegNum) (b : OperandB) (cin : Bool) (s : State) : Result :=
  finish (subtracter (s.reg ra) (s.operandB b) cin) (s.reg ra)
    (subBflag s.cfg.ovfBSource (s.operandB b)) s

/-- ADD (R110). -/
def execAdd (d a : RegNum) (b : OperandB) (s : State) : Result := addInto d a b false s

/-- ADDC (R111): the carry-in is the carry flag of the previous step (R97). -/
def execAddc (d a : RegNum) (b : OperandB) (s : State) : Result := addInto d a b s.flags.carry s

/-- SUB (R112). -/
def execSub (d a : RegNum) (b : OperandB) (s : State) : Result := subInto d a b true s

/-- SUBC (R113). -/
def execSubc (d a : RegNum) (b : OperandB) (s : State) : Result := subInto d a b s.flags.carry s

/-- CMP (R114): a SUB that writes no register. -/
def execCmp (a : RegNum) (b : OperandB) (s : State) : Result := compareFlags a b true s

/-- CMPC (R115): a SUBC that writes no register; its encoded destination is ignored. -/
def execCmpc (_d a : RegNum) (b : OperandB) (s : State) : Result := compareFlags a b s.flags.carry s

end Sys2Proof.Machine
end

