-- ==== Sys2Proof/Machine/Jumps.lean ====
section
/-! DEFINITION. JMP and JMPI under the six conditions (spec/44_jumps.md R140 to R144). The pc already holds the address of
the next word when a jump executes (R90). -/

namespace Sys2Proof.Machine

/-- `pc <- target` if the condition holds on the flags of the previous step (R142); else the advanced pc stands. -/
def branch (k : Cond) (target : Byte) (s : State) : State :=
  if condHolds k s.flags then s.setPc target else s

/-- JMP (R140): the target is `(a + b) mod 256`, and the flags are those of the sum, taken or not. -/
def jumpRegister (k : Cond) (ra : RegNum) (b : OperandB) (s : State) : Result :=
  finish (adder (s.reg ra) (s.operandB b) false) (s.reg ra) (s.operandB b)
    (branch k (lowByte (adder (s.reg ra) (s.operandB b) false)) s)

/-- JMPI (R141): the target is the immediate, and the flags are those of a non-ALU opcode, taken or not. -/
def jumpImmediate (k : Cond) (target : Byte) (s : State) : Result := finishNonAlu (branch k target s)

/-- JMP under ALWAYS (R140). -/
def execJmp (a : RegNum) (b : OperandB) (s : State) : Result := jumpRegister .always a b s

/-- JMP under JEQ (R140). -/
def execJeq (a : RegNum) (b : OperandB) (s : State) : Result := jumpRegister .jeq a b s

/-- JMP under JGT (R140). -/
def execJgt (a : RegNum) (b : OperandB) (s : State) : Result := jumpRegister .jgt a b s

/-- JMP under JGE (R140). -/
def execJge (a : RegNum) (b : OperandB) (s : State) : Result := jumpRegister .jge a b s

/-- JMP under JGTS (R140). -/
def execJgts (a : RegNum) (b : OperandB) (s : State) : Result := jumpRegister .jgts a b s

/-- JMP under JGES (R140). -/
def execJges (a : RegNum) (b : OperandB) (s : State) : Result := jumpRegister .jges a b s

/-- JMPI under ALWAYS (R141). -/
def execJmpi (target : Byte) (s : State) : Result := jumpImmediate .always target s

/-- JMPI under JEQ (R141). -/
def execJeqi (target : Byte) (s : State) : Result := jumpImmediate .jeq target s

/-- JMPI under JGT (R141). -/
def execJgti (target : Byte) (s : State) : Result := jumpImmediate .jgt target s

/-- JMPI under JGE (R141). -/
def execJgei (target : Byte) (s : State) : Result := jumpImmediate .jge target s

/-- JMPI under JGTS (R141). -/
def execJgtsi (target : Byte) (s : State) : Result := jumpImmediate .jgts target s

/-- JMPI under JGES (R141). -/
def execJgesi (target : Byte) (s : State) : Result := jumpImmediate .jges target s

end Sys2Proof.Machine
end

