-- ==== Sys2Proof/Machine/LoadStore.lean ====
section
/-! DEFINITION. LD, ST, STI (spec/45_load_store.md R150 to R153). The address is `x[7]`, always and only (R153). -/

namespace Sys2Proof.Machine

/-- The effective address of LD, ST and STI (R153). -/
def State.dataAddress (s : State) : Byte := s.reg 7

/-- LD (R150): the byte at the old `x[7]`, through device dispatch; the flags say nothing of it. -/
def execLd (d : RegNum) (s : State) : Result :=
  let r := s.memRead s.dataAddress
  finishNonAlu (r.2.setReg d r.1)

/-- ST (R151): store `(a + b) mod 256`; the flags are those of the sum. -/
def execSt (a : RegNum) (b : OperandB) (s : State) : Result :=
  let out := adder (s.reg a) (s.operandB b) false
  finish out (s.reg a) (s.operandB b) (s.memWrite s.dataAddress (lowByte out))

/-- STI (R152): store the immediate; `out` is the immediate with bit 8 zero, and `a = b = 0` (R93). -/
def execSti (n : Byte) (s : State) : Result :=
  finish (n.setWidth 9) 0 0 (s.memWrite s.dataAddress n)

end Sys2Proof.Machine
end

