-- ==== Sys2Proof/Machine/Logic.lean ====
section
/-! DEFINITION. XOR, NAND, OR, AND (spec/42_logic.md R120 to R124). -/

namespace Sys2Proof.Machine

/-- Common to the four (R124): the 8-bit result of the operand values `va` and `vb` into `d`. -/
def logicInto (d : RegNum) (result va vb : Byte) (s : State) : Result :=
  finishInto d (logicOut s.cfg.logicBit8 result) va vb s

/-- XOR (R120). -/
def execXor (d a : RegNum) (b : OperandB) (s : State) : Result :=
  logicInto d (s.reg a ^^^ s.operandB b) (s.reg a) (s.operandB b) s

/-- NAND (R121): the 8-bit complement of the AND. -/
def execNand (d a : RegNum) (b : OperandB) (s : State) : Result :=
  logicInto d (~~~(s.reg a &&& s.operandB b)) (s.reg a) (s.operandB b) s

/-- OR (R122). -/
def execOr (d a : RegNum) (b : OperandB) (s : State) : Result :=
  logicInto d (s.reg a ||| s.operandB b) (s.reg a) (s.operandB b) s

/-- AND (R123). -/
def execAnd (d a : RegNum) (b : OperandB) (s : State) : Result :=
  logicInto d (s.reg a &&& s.operandB b) (s.reg a) (s.operandB b) s

end Sys2Proof.Machine
end

