-- ==== Sys2Proof/Machine/Misc.lean ====
section
/-! DEFINITION. IMM, RAND, HALT, NOP (spec/46_misc.md R160 to R163), all non-ALU opcodes. -/

namespace Sys2Proof.Machine

/-- IMM (R160). -/
def execImm (d : RegNum) (n : Byte) (s : State) : Result := finishNonAlu (s.setReg d n)

/-- RAND (R161): the byte is a free draw. -/
def execRand (d : RegNum) (s : State) : Result :=
  let r := s.draw
  finishNonAlu (r.2.setReg d r.1)

/-- HALT (R162): sets `halted`; its own step is complete (D20). -/
def execHalt (s : State) : Result := finishNonAlu s.setHalted

/-- NOP (R163): nothing but the flag update. -/
def execNop (s : State) : Result := finishNonAlu s

end Sys2Proof.Machine
end

