-- ==== Sys2Proof/Machine/Shift.lean ====
section
/-! DEFINITION. SHR and SHRC (spec/43_shift.md R130 to R132): they shift the sum `a + b` by one place. -/

namespace Sys2Proof.Machine

/-- Common to the two, with the bit that enters at bit 7. -/
def shiftInto (d ra : RegNum) (b : OperandB) (cin : Bool) (s : State) : Result :=
  finishInto d (shifterOut s.cfg.shrWide (s.reg ra) (s.operandB b) cin) (s.reg ra) (s.operandB b) s

/-- SHR (R130). -/
def execShr (d a : RegNum) (b : OperandB) (s : State) : Result := shiftInto d a b false s

/-- SHRC (R131): the carry flag of the previous step enters at bit 7 (R97). -/
def execShrc (d a : RegNum) (b : OperandB) (s : State) : Result := shiftInto d a b s.flags.carry s

end Sys2Proof.Machine
end

