-- ==== Sys2Proof/Machine/Dispatch.lean ====
section
/-! DEFINITION. One arm per constructor of Instr, each a direct call of the instruction's meaning. -/

namespace Sys2Proof.Machine

/-- The effect of one instruction and its flag update, on the state whose pc has already advanced (R90, R102). -/
def exec (i : Instr) (s : State) : Host.Outcome State Fault Refusal :=
  match i with
  | .add d a b => Sys2Proof.Machine.execAdd d a b s
  | .addc d a b => Sys2Proof.Machine.execAddc d a b s
  | .sub d a b => Sys2Proof.Machine.execSub d a b s
  | .subc d a b => Sys2Proof.Machine.execSubc d a b s
  | .cmp a b => Sys2Proof.Machine.execCmp a b s
  | .cmpc d a b => Sys2Proof.Machine.execCmpc d a b s
  | .xor d a b => Sys2Proof.Machine.execXor d a b s
  | .nand d a b => Sys2Proof.Machine.execNand d a b s
  | .or d a b => Sys2Proof.Machine.execOr d a b s
  | .and d a b => Sys2Proof.Machine.execAnd d a b s
  | .shr d a b => Sys2Proof.Machine.execShr d a b s
  | .shrc d a b => Sys2Proof.Machine.execShrc d a b s
  | .jmp a b => Sys2Proof.Machine.execJmp a b s
  | .jeq a b => Sys2Proof.Machine.execJeq a b s
  | .jgt a b => Sys2Proof.Machine.execJgt a b s
  | .jge a b => Sys2Proof.Machine.execJge a b s
  | .jgts a b => Sys2Proof.Machine.execJgts a b s
  | .jges a b => Sys2Proof.Machine.execJges a b s
  | .ld d => Sys2Proof.Machine.execLd d s
  | .st a b => Sys2Proof.Machine.execSt a b s
  | .rand d => Sys2Proof.Machine.execRand d s
  | .halt => Sys2Proof.Machine.execHalt s
  | .nop => Sys2Proof.Machine.execNop s
  | .jmpi target => Sys2Proof.Machine.execJmpi target s
  | .jeqi target => Sys2Proof.Machine.execJeqi target s
  | .jgti target => Sys2Proof.Machine.execJgti target s
  | .jgei target => Sys2Proof.Machine.execJgei target s
  | .jgtsi target => Sys2Proof.Machine.execJgtsi target s
  | .jgesi target => Sys2Proof.Machine.execJgesi target s
  | .sti n => Sys2Proof.Machine.execSti n s
  | .imm d n => Sys2Proof.Machine.execImm d n s

end Sys2Proof.Machine
end

