-- ==== Sys2Proof/Machine/Step.lean ====
section
/-! DEFINITION. One step of the machine (spec/40_cycle_and_flags.md R90), and the placing of a word where it fetches. -/

namespace Sys2Proof.Machine

/-- One step (R90, R102, R103): nothing if the machine is halted; else fetch, advance the pc, decode, and execute with the
flag update, or end in the fatal error that the decode raises. -/
def step (s : State) : Host.Outcome State Fault Refusal :=
  if s.halted then .next s
  else
    let f := s.fetchWord
    match decode s.cfg f.hi f.lo with
    | .error e => raise e
    | .ok i => exec i f.after.advancePc

/-- The state in which the next step fetches and runs the word `w`, numbered as spec/opcode_table.json numbers it: its two
bytes stand in raw memory at `pc` and `(pc + 1) mod 256` in the machine's byte order (R31), and the machine is not halted. It
stands for the host's load of a program (R193). -/
def State.withFetchWord (s : State) (nbits w : Nat) : State :=
  let t := tableBytes nbits w
  let p := orderBytes s.cfg.wordOrder t.1 t.2
  { s with
    halted := false
    mem := (s.mem.write s.pc.toNat p.1).write (s.pc + 1).toNat p.2 }

end Sys2Proof.Machine
end

