-- ==== Sys2Proof/Machine/Assembler.lean ====
section
/-! DEFINITION. The assembler's source language as notation (spec/00_scope.md R5, spec/30_encoding.md R70 to R88): tokens,
statements to Instruction Records, labels, and the program image of the two passes. It hands its records to the encoder
block of Sys2Proof/Decode.lean; nothing of the machine's step depends on it. -/

namespace Sys2Proof.Machine

/-- A token of a source line (R71 to R73). -/
inductive Token
  | int (v : Int)
  | reg (r : RegNum)
  | word (name : Ident)
  | labelDef (name : Ident)
  deriving DecidableEq, Repr

/-- Why an assembly fails (R88). `misplaced` is a label definition, or a `def` operand, where none may stand.
`imageTooLong` is an image that would pass the 255 bytes of R85 and R202. DESIGN CHOICE, unsafe (log entry 30): R85 bounds
the image and R88 lists no failure for a longer one; the model fails on it, under this name. -/
inductive AsmError
  | badNumber
  | badCharacter
  | opNotString
  | operandCount
  | unknownOp
  | unknownLabel
  | misplaced
  | imageTooLong
  | encoder (e : EncodeError)
  deriving DecidableEq, Repr

/-! ### Tokens -/

/-- The value of a digit, if it is one of the base. -/
def digitValue (base : Nat) (c : Char) : Option Nat :=
  let v :=
    if '0' ≤ c ∧ c ≤ '9' then some (c.toNat - '0'.toNat)
    else if 'a' ≤ c ∧ c ≤ 'f' then some (c.toNat - 'a'.toNat + 10)
    else if 'A' ≤ c ∧ c ≤ 'F' then some (c.toNat - 'A'.toNat + 10)
    else none
  v.filter (· < base)

/-- The value of one or more digits. -/
def digitsValue (base : Nat) : List Char → Option Nat
  | [] => none
  | ds => ds.foldl (fun acc c => acc.bind fun n => (digitValue base c).map (n * base + ·)) (some 0)

/-- An unsigned integer by R71's radix rules. -/
def naturalValue : List Char → Option Nat
  | '0' :: 'x' :: ds => digitsValue 16 ds
  | '0' :: 'b' :: ds => digitsValue 2 ds
  | '0' :: 'o' :: ds => digitsValue 8 ds
  | ds => digitsValue 10 ds

/-- An integer token, held as a signed 32-bit value (R71). -/
def integerToken (v : Option Int) : Except AsmError Token :=
  match v with
  | some n => if int32 n then .ok (.int n) else .error .badNumber
  | none => .error .badNumber

/-- The first value bound to a name in a table. -/
def lookup {α : Type} (table : List (Ident × α)) (name : Ident) : Option α :=
  (table.find? fun p => p.1 == name).map (·.2)

/-- A token that is no number (R73): a register, a name bound by `def`, a label definition, or a bare string. -/
def nameToken (defs : List (Ident × Token)) (t : Ident) : Token :=
  match t with
  | ['r', '0'] => .reg 0
  | ['r', '1'] => .reg 1
  | ['r', '2'] => .reg 2
  | ['r', '3'] => .reg 3
  | ['r', '4'] => .reg 4
  | ['r', '5'] => .reg 5
  | ['r', '6'] => .reg 6
  | ['r', '7'] => .reg 7
  | _ =>
    match lookup defs t with
    | some v => v
    | none => if t.getLast? = some ':' then .labelDef t.dropLast else .word t

/-- A maximal run of characters as a token (R71, R73). -/
def runToken (defs : List (Ident × Token)) (t : Ident) : Except AsmError Token :=
  match t with
  | '-' :: d :: ds =>
    if d.isDigit then integerToken ((naturalValue (d :: ds)).map fun n => -(n : Int))
    else .ok (nameToken defs t)
  | d :: _ =>
    if d.isDigit then integerToken ((naturalValue t).map fun n => (n : Int)) else .ok (nameToken defs t)
  | [] => .ok (nameToken defs t)

/-- The code point a character literal's escape stands for (R72). -/
def escapeValue (e : Char) : Int :=
  if e = 'n' then 10 else if e = 'r' then 13 else if e = 't' then 9 else if e = '0' then 0 else e.toNat

/-- The tokens of one line (R70 to R73). `run` holds the characters of the current run, last first. -/
def lexLine (defs : List (Ident × Token)) : List Char → List Char → Except AsmError (List Token)
  | [], run => if run = [] then .ok [] else (runToken defs run.reverse).map ([·])
  | c :: cs, run =>
    if c = '#' then if run = [] then .ok [] else (runToken defs run.reverse).map ([·])
    else if c.isWhitespace then
      match run with
      | [] => lexLine defs cs []
      | _ :: _ =>
        match runToken defs run.reverse with
        | .error e => .error e
        | .ok t => (lexLine defs cs []).map (t :: ·)
    else if c = '\'' ∧ run = [] then
      match cs with
      | '\\' :: e :: '\'' :: rest => (lexLine defs rest []).map (.int (escapeValue e) :: ·)
      | v :: '\'' :: rest =>
        if v = '\\' then .error .badCharacter else (lexLine defs rest []).map (.int v.toNat :: ·)
      | _ => .error .badCharacter
    else lexLine defs cs (c :: run)

/-! ### Statements to records (R75 to R87) -/

/-- The eleven three-operand mnemonics (R76). -/
def threeOperandOps : List (Ident × OpName) :=
  [("add".toList, .add), ("addc".toList, .addc), ("sub".toList, .sub), ("subc".toList, .subc),
   ("cmpc".toList, .cmpc), ("xor".toList, .xor), ("nand".toList, .nand), ("or".toList, .or),
   ("and".toList, .and), ("shr".toList, .shr), ("shrc".toList, .shrc)]

/-- The six jump mnemonics (R80). -/
def jumpOps : List (Ident × Cond) :=
  [("jmp".toList, .always), ("jeq".toList, .jeq), ("jgt".toList, .jgt), ("jge".toList, .jge),
   ("jgts".toList, .jgts), ("jges".toList, .jges)]

/-- A token as an operand: a bare string in operand position is a label reference (R73). -/
def operandOf : Token → Except AsmError Operand
  | .int v => .ok (.int v)
  | .reg r => .ok (.reg r)
  | .word name => .ok (.label name)
  | .labelDef _ => .error .misplaced

/-- The operands of a statement, in order. -/
def operandsOf : List Token → Except AsmError (List Operand)
  | [] => .ok []
  | t :: ts =>
    match operandOf t, operandsOf ts with
    | .ok x, .ok xs => .ok (x :: xs)
    | .error e, _ => .error e
    | _, .error e => .error e

/-- A jump's record (R80): one register is an absolute-via-register jump with literal 0, one other operand an immediate
target, two operands a register sum. -/
def jumpRecord (c : Config) (k : Cond) : List Operand → Except AsmError Record
  | [.reg a] => .ok (.rfmt (c.opNumber .jmp) (.cond (c.condCode k)) (.reg a) (.int 0))
  | [t] => .ok (.ifmt (c.opNumber .jmpi) (.cond (c.condCode k)) t)
  | [a, b] => .ok (.rfmt (c.opNumber .jmp) (.cond (c.condCode k)) a b)
  | _ => .error .operandCount

/-- The records of the remaining mnemonics (R75, R77 to R79, R81 to R84, R87). -/
def otherRecord (c : Config) (op : Ident) (xs : List Operand) : Except AsmError Record :=
  if op = "mov".toList then
    match xs with
    | [d, .reg s] => .ok (.rfmt (c.opNumber .add) d (.reg s) (.int 0))
    | [d, v] => .ok (.ifmt (c.opNumber .imm) d v)
    | _ => .error .operandCount
  else if op = "imm".toList then
    match xs with
    | [d, v] => .ok (.ifmt (c.opNumber .imm) d v)
    | _ => .error .operandCount
  else if op = "cmp".toList then
    match xs with
    | [a, b] => .ok (.rfmt (c.opNumber .cmp) (.reg 0) a b)
    | _ => .error .operandCount
  else if op = "ld".toList then
    match xs with
    | [d] => .ok (.rfmt (c.opNumber .ld) d (.reg 0) (.reg 0))
    | _ => .error .operandCount
  else if op = "st".toList then
    match xs with
    | [.reg b] => .ok (.rfmt (c.opNumber .st) (.reg 0) (.reg 0) (.reg b))
    | [v] => .ok (.ifmt (c.opNumber .sti) (.reg 0) v)
    | [a, b] => .ok (.rfmt (c.opNumber .st) (.reg 0) a b)
    | _ => .error .operandCount
  else if op = "rand".toList then
    match xs with
    | [d] => .ok (.rfmt (c.opNumber .rand) d (.reg 0) (.reg 0))
    | _ => .error .operandCount
  else if op = "halt".toList then
    match xs with
    | [] => .ok (.rfmt (c.opNumber .halt) (.reg 0) (.reg 0) (.reg 0))
    | _ => .error .operandCount
  else if op = "nop".toList then
    match xs with
    | [] => .ok (.rfmt (c.opNumber .nop) (.reg 0) (.reg 0) (.reg 0))
    | _ => .error .operandCount
  else if op = "byte".toList then
    match xs with
    | [v] => .ok (.raw v)
    | _ => .error .operandCount
  else .error .unknownOp

/-- The record of a mnemonic and its operands (R87). -/
def recordOf (c : Config) (op : Ident) (xs : List Operand) : Except AsmError Record :=
  match lookup threeOperandOps op with
  | some o =>
    match xs with
    | [d, a, b] => .ok (.rfmt (c.opNumber o) d a b)
    | _ => .error .operandCount
  | none =>
    match lookup jumpOps op with
    | some k => jumpRecord c k xs
    | none => otherRecord c op xs

/-! ### Labels and the two passes (R74, R85, R86) -/

/-- An operand with its label replaced by the label's address (R86). -/
def resolve (labels : List (Ident × Nat)) : Operand → Except AsmError Operand
  | .label name | .bare name =>
    match lookup labels name with
    | some a => .ok (.int a)
    | none => .error .unknownLabel
  | .reg r => .ok (.reg r)
  | .int v => .ok (.int v)
  | .cond k => .ok (.cond k)

/-- A record with its labels replaced (R86). -/
def resolveRecord (labels : List (Ident × Nat)) : Record → Except AsmError Record
  | .rfmt op dst a b =>
    match resolve labels dst, resolve labels a, resolve labels b with
    | .ok dst', .ok a', .ok b' => .ok (.rfmt op dst' a' b')
    | .error e, _, _ => .error e
    | _, .error e, _ => .error e
    | _, _, .error e => .error e
  | .ifmt op dst v =>
    match resolve labels dst, resolve labels v with
    | .ok dst', .ok v' => .ok (.ifmt op dst' v')
    | .error e, _ => .error e
    | _, .error e => .error e
  | .raw v =>
    match resolve labels v with
    | .ok v' => .ok (.raw v')
    | .error e => .error e

/-- The bytes a record occupies: 1 or 2 (R64, R85). -/
def recordSize : Record → Nat
  | .raw _ => 1
  | .rfmt _ _ _ _ | .ifmt _ _ _ => 2

/-- The longest image, in bytes (R85, R202; spec/00_scope.md, "Program Image"). -/
def maxImage : Nat := 255

/-- What pass 1 carries from line to line (R74, R75, R85); tables and records have the newest entry first. The addresses of
`addr` and `labels` are counts, and labels are 8-bit addresses (R202) because `placeRecord` keeps `addr` at `maxImage` or
below. -/
structure AsmState where
  addr : Nat
  defs : List (Ident × Token)
  labels : List (Ident × Nat)
  records : List (Nat × Record)
  deriving DecidableEq, Repr

/-- Bind the leading label definitions of a line to the current address (R74). -/
def bindLabels (st : AsmState) : List Token → AsmState × List Token
  | .labelDef name :: ts => bindLabels { st with labels := (name, st.addr) :: st.labels } ts
  | ts => (st, ts)

/-- Put a record at the running address and advance it by the record's size (R85). A record that would end past the 255
bytes of an image fails; that it fails, and at the record's own line in pass 1, is the model's choice (log entry 30). -/
def placeRecord (lineNo : Nat) (r : Record) (st : AsmState) : Except AsmError AsmState :=
  if maxImage < st.addr + recordSize r then .error .imageTooLong
  else .ok { st with addr := st.addr + recordSize r, records := (lineNo, r) :: st.records }

/-- One line of pass 1: labels, then at most one statement or directive (R70, R75). DESIGN CHOICE, unsafe (log entry 33):
which failure is reported of a line that meets several (R88 gives no order). Here the tokens of the whole line come first,
from left to right, then the shape of the statement (`opNotString`), then a misplaced operand, then the mnemonic, then the
operand count, then the length of the image. -/
def passOneLine (c : Config) (lineNo : Nat) (line : List Char) (st : AsmState) : Except AsmError AsmState :=
  match lexLine st.defs line [] with
  | .error e => .error e
  | .ok toks =>
    match bindLabels st toks with
    | (st', []) => .ok st'
    | (st', .word op :: args) =>
      if op = "def".toList then
        match args with
        | [.word name, .int v] => .ok { st' with defs := (name, .int v) :: st'.defs }
        | [.word name, .reg r] => .ok { st' with defs := (name, .reg r) :: st'.defs }
        | [_, _] => .error .misplaced
        | _ => .error .operandCount
      else
        match operandsOf args with
        | .error e => .error e
        | .ok xs =>
          match recordOf c op xs with
          | .error e => .error e
          | .ok r => placeRecord lineNo r st'
    | _ => .error .opNotString

/-- Pass 1 over the lines from number `lineNo` on; a failure carries its 1-based line number (R88). -/
def passOne (c : Config) : Nat → List (List Char) → AsmState → Except (Nat × AsmError) AsmState
  | _, [], st => .ok st
  | lineNo, l :: ls, st =>
    match passOneLine c lineNo l st with
    | .error e => .error (lineNo, e)
    | .ok st' => passOne c (lineNo + 1) ls st'

/-- The bytes of one record, its labels resolved (R86, R62). -/
def recordImage (c : Config) (labels : List (Ident × Nat)) (r : Record) : Except AsmError (List Byte) :=
  match resolveRecord labels r with
  | .error e => .error e
  | .ok r' =>
    match encodeRecord c r' with
    | .error e => .error (.encoder e)
    | .ok bs => .ok bs

/-- Pass 2 over the records in source order (R85, R86). -/
def passTwo (c : Config) (labels : List (Ident × Nat)) : List (Nat × Record) → Except (Nat × AsmError) (List Byte)
  | [] => .ok []
  | (lineNo, r) :: rs =>
    match recordImage c labels r with
    | .error e => .error (lineNo, e)
    | .ok bs =>
      match passTwo c labels rs with
      | .error e => .error e
      | .ok bs' => .ok (bs ++ bs')

/-- The lines of a source text; `line` holds the characters of the current line, last first. -/
def sourceLines : List Char → List Char → List (List Char)
  | [], line => [line.reverse]
  | c :: cs, line => if c = '\n' then line.reverse :: sourceLines cs [] else sourceLines cs (c :: line)

/-- The program image of a source text, or the first failure with its line number (R70 to R88). A failure of pass 1 on any
line is reported before one of pass 2, and in pass 2 an unknown label of a record before the encoder's failure of it, which
is the model's choice (log entry 33). An image is at most 255
bytes long (R85); a source whose image would be longer fails, which is the model's choice (log entry 30). -/
def assemble (c : Config) (source : List Char) : Except (Nat × AsmError) (List Byte) :=
  match passOne c 1 (sourceLines source []) ⟨0, [], [], []⟩ with
  | .error e => .error e
  | .ok st => passTwo c st.labels st.records.reverse

/-- The bytes of one statement without labels. -/
def assembleStatement (c : Config) (op : Ident) (args : List Token) : Except AsmError (List Byte) :=
  match operandsOf args with
  | .error e => .error e
  | .ok xs =>
    match recordOf c op xs with
    | .error e => .error e
    | .ok r => recordImage c [] r

/-! ### The source form of an instruction (R76 to R84) -/

/-- Operand B as a source token. -/
def tokenB : OperandB → Token
  | .reg r => .reg r
  | .lit v => .int v

/-- The mnemonic and the operands of an instruction's source form. -/
def sourceForm : Instr → Ident × List Token
  | .add d a b => ("add".toList, [.reg d, .reg a, tokenB b])
  | .addc d a b => ("addc".toList, [.reg d, .reg a, tokenB b])
  | .sub d a b => ("sub".toList, [.reg d, .reg a, tokenB b])
  | .subc d a b => ("subc".toList, [.reg d, .reg a, tokenB b])
  | .cmp a b => ("cmp".toList, [.reg a, tokenB b])
  | .cmpc d a b => ("cmpc".toList, [.reg d, .reg a, tokenB b])
  | .xor d a b => ("xor".toList, [.reg d, .reg a, tokenB b])
  | .nand d a b => ("nand".toList, [.reg d, .reg a, tokenB b])
  | .or d a b => ("or".toList, [.reg d, .reg a, tokenB b])
  | .and d a b => ("and".toList, [.reg d, .reg a, tokenB b])
  | .shr d a b => ("shr".toList, [.reg d, .reg a, tokenB b])
  | .shrc d a b => ("shrc".toList, [.reg d, .reg a, tokenB b])
  | .jmp a b => ("jmp".toList, [.reg a, tokenB b])
  | .jeq a b => ("jeq".toList, [.reg a, tokenB b])
  | .jgt a b => ("jgt".toList, [.reg a, tokenB b])
  | .jge a b => ("jge".toList, [.reg a, tokenB b])
  | .jgts a b => ("jgts".toList, [.reg a, tokenB b])
  | .jges a b => ("jges".toList, [.reg a, tokenB b])
  | .ld d => ("ld".toList, [.reg d])
  | .st a b => ("st".toList, [.reg a, tokenB b])
  | .rand d => ("rand".toList, [.reg d])
  | .halt => ("halt".toList, [])
  | .nop => ("nop".toList, [])
  | .jmpi t => ("jmp".toList, [.int t.toNat])
  | .jeqi t => ("jeq".toList, [.int t.toNat])
  | .jgti t => ("jgt".toList, [.int t.toNat])
  | .jgei t => ("jge".toList, [.int t.toNat])
  | .jgtsi t => ("jgts".toList, [.int t.toNat])
  | .jgesi t => ("jges".toList, [.int t.toNat])
  | .sti n => ("st".toList, [.int n.toNat])
  | .imm d n => ("imm".toList, [.reg d, .int n.toNat])

end Sys2Proof.Machine
end

