-- ==== Sys2Proof/Safety.lean ====
section
/-! DEFINITION. The terms claims use: what a step leaves alone, the invariant of the machine's data, and how a run ends
(spec/70_reset_and_hazards.md R195). -/

namespace Sys2Proof.Machine

/-- No byte of memory reads otherwise. -/
def KeepsMemory (s t : State) : Prop := ∀ a : Nat, t.mem.read a = s.mem.read a

/-- No byte of memory reads otherwise but the one at `x`. -/
def KeepsMemoryBut (x : Nat) (s t : State) : Prop := ∀ a : Nat, a ≠ x → t.mem.read a = s.mem.read a

/-- No general register changes. -/
def KeepsRegisters (s t : State) : Prop := ∀ r : RegNum, t.reg r = s.reg r

/-- No general register changes but `d`. -/
def KeepsRegistersBut (d : RegNum) (s t : State) : Prop := ∀ r : RegNum, r ≠ d → t.reg r = s.reg r

/-- The devices, the parameters and the count of free values used are as before. -/
def KeepsOutside (s t : State) : Prop := t.devices = s.devices ∧ t.cfg = s.cfg ∧ t.draws = s.draws

/-- What an arithmetic, logic or shift instruction with destination `d` leaves alone: everything but `x[d]` and the flags. -/
def OnlyRegisterAndFlags (d : RegNum) (s t : State) : Prop :=
  KeepsRegistersBut d s t ∧ t.pc = s.pc ∧ t.halted = s.halted ∧ KeepsMemory s t ∧ KeepsOutside s t

/-- Everything but the flags is as before. -/
def OnlyFlags (s t : State) : Prop :=
  KeepsRegisters s t ∧ t.pc = s.pc ∧ t.halted = s.halted ∧ KeepsMemory s t ∧ KeepsOutside s t

/-- The flags as R99 writes them, in the order C, S, Z, V. -/
def flagBits (f : Flags) : Bool × Bool × Bool × Bool := (f.carry, f.sign, f.zero, f.overflow)

/-- Two devices are the same registration: one device before and after some calls. -/
def sameDevice : Device → Device → Bool
  | .charOut _, .charOut _ => true
  | .pixelBuffer _, .pixelBuffer _ => true
  | .other i _, .other j _ => i == j
  | _, _ => false

/-- Two registration lists are the same configuration (R23): the same devices at the same addresses in the same order. -/
def sameRegistration : List Port → List Port → Bool
  | [], [] => true
  | p :: ps, q :: qs => p.addr == q.addr && sameDevice p.dev q.dev && sameRegistration ps qs
  | _, _ => false

/-- The invariant of the machine's data: memory has its canonical form, so that equal memories are equal lists and every
listed address exists (R21), and the parameters are within the limits of R57 to R59. -/
def State.Inv (s : State) : Prop := s.mem.wf = true ∧ s.cfg.wf = true

/-- A run is safe: no number of steps ends it in a fault (R195). -/
def FaultFree (s : State) : Prop := ∀ (k : Nat) (f : Fault), Host.Core.run Sys2Proof.core k s ≠ .fault f

/-- A run has halted in `t` after at most `k` steps: the only normal end of a run (R195). -/
def HaltsWithin (k : Nat) (s t : State) : Prop :=
  Host.Core.run Sys2Proof.core k s = .next t ∧ t.halted = true

end Sys2Proof.Machine
end

