-- ==== Sys2Proof/Certificates/Slice0/Obligations.lean ====
section
/-! DEFINITION. The statements for the provers, each a `def Obligations.<Name> : Prop`, and the few tables of spec/ that
they speak of. Operand values are `s.reg a` and `s.operandB b`; the accumulator and the flags are stated as arithmetic
on numbers, independently of the meanings' bit vectors. -/

namespace Sys2Proof.Claims

open Sys2Proof.Machine

/-- Under the default parameters the source statement assembles to the bytes `hi`, `lo`, and they decode to `i`. -/
def WrittenAs (op : Ident) (args : List Token) (i : Instr) (hi lo : Byte) : Prop :=
  assembleStatement Config.default op args = .ok [hi, lo] ∧ decode Config.default hi lo = .ok i

/-- Under the default parameters the source statement whose last operand is a label assembles to the bytes `hi`, `lo`, the
label's address being `lo` (R86). -/
def LabelWrittenAs (op : Ident) (before : List Operand) (hi lo : Byte) : Prop :=
  ∀ name : Ident, ∃ r, recordOf Config.default op (before ++ [.label name]) = .ok r ∧
    recordImage Config.default [(name, lo.toNat)] r = .ok [hi, lo]

/-- Operand B as the record's operand. -/
def operandB : OperandB → Operand
  | .reg r => .reg r
  | .lit v => .int v

/-- A byte's sign bit, as a condition on the number. -/
def neg (v : Byte) : Bool := decide (128 ≤ v.toNat)

/-- R99 on numbers: the flags from `out`, from the sign of `a` and from the sign of `bflag`. -/
def flagRule (out : Nat) (aNeg bflagNeg : Bool) : Flags where
  carry := decide (256 ≤ out)
  sign := decide (128 ≤ out % 256)
  zero := decide (out % 256 = 0)
  overflow := aNeg == bflagNeg && aNeg != decide (128 ≤ out % 256)

/-- The result of an 8-bit signed operation lies outside -128..127. -/
def outOfRange (v : Int) : Bool := decide (v < -128) || decide (127 < v)

/-- What a jump leaves alone: everything but the pc and the flags. -/
def OnlyPcAndFlags (s t : State) : Prop :=
  KeepsRegisters s t ∧ t.halted = s.halted ∧ KeepsMemory s t ∧ KeepsOutside s t

/-- What a store leaves alone: everything but the flags, memory and the devices. -/
def StoreFrame (s t : State) : Prop :=
  KeepsRegisters s t ∧ t.pc = s.pc ∧ t.halted = s.halted ∧ t.cfg = s.cfg

/-- The effect of a store of `v` at `x[7]` (R37): at a device's address the devices' writes and no byte of memory; else
the one byte, the devices untouched. -/
def StoresByte (v : Byte) (s t : State) : Prop :=
  (s.hasDevice s.dataAddress = true →
    KeepsMemory s t ∧ t.devices = (writePorts s.dataAddress v s.devices s.draws).1) ∧
  (s.hasDevice s.dataAddress = false →
    KeepsMemoryBut s.dataAddress.toNat s t ∧ t.devices = s.devices ∧ t.draws = s.draws ∧
    (s.mem.wf = true → t.mem.read s.dataAddress.toNat = v))

/-- Operands A and B of an R-format ALU instruction (R96); none for the other opcodes. -/
def aluOperands : Instr → Option (RegNum × OperandB)
  | .add _ a b | .addc _ a b | .sub _ a b | .subc _ a b | .cmp a b | .cmpc _ a b => some (a, b)
  | .xor _ a b | .nand _ a b | .or _ a b | .and _ a b | .shr _ a b | .shrc _ a b => some (a, b)
  | .jmp a b | .jeq a b | .jgt a b | .jge a b | .jgts a b | .jges a b | .st a b => some (a, b)
  | .ld _ | .rand _ | .halt | .nop => none
  | .jmpi _ | .jeqi _ | .jgti _ | .jgei _ | .jgtsi _ | .jgesi _ | .sti _ | .imm _ _ => none

/-- The operand values `a` and `b` of a step (R93, R94, R96). -/
def valueA (i : Instr) (s : State) : Byte :=
  match aluOperands i with
  | some p => s.reg p.1
  | none => 0

/-- The operand value `b` of a step (R93, R94, R96). -/
def valueB (i : Instr) (s : State) : Byte :=
  match aluOperands i with
  | some p => s.operandB p.2
  | none => 0

/-- Is the opcode one of the subtract group (R98)? -/
def subtracts (i : Instr) : Bool :=
  i.opName == .sub || i.opName == .subc || i.opName == .cmp || i.opName == .cmpc

/-- The sign of `bflag` (R98): of the complement of `b` in the subtract group when `OVF_B_SOURCE` is `inverted`, else of
`b`. -/
def bflagNeg (i : Instr) (s : State) : Bool :=
  if subtracts i && s.cfg.ovfBSource == .inverted then !neg (valueB i s) else neg (valueB i s)

/-- Bit 7 of a shift's result (R130, R131, R132). -/
def shiftTop (i : Instr) (s : State) : Bool :=
  (i.opName == .shrc && s.flags.carry) ||
    (s.cfg.shrWide == .kept && decide (256 ≤ (valueA i s).toNat + (valueB i s).toNat))

/-- The accumulator `out` of every opcode, as R101's table gives it, on numbers. -/
def accumulator (i : Instr) (s : State) : Nat :=
  let a := (valueA i s).toNat
  let b := (valueB i s).toNat
  let cin := s.flags.carry.toNat
  let bit8 := if s.cfg.logicBit8 then 256 else 0
  match i.opName with
  | .add | .jmp | .st => a + b
  | .addc => a + b + cin
  | .sub | .cmp => a + (255 - b) + 1
  | .subc | .cmpc => a + (255 - b) + cin
  | .xor => (a ^^^ b) + bit8
  | .nand => (255 - (a &&& b)) + bit8
  | .or => (a ||| b) + bit8
  | .and => (a &&& b) + bit8
  | .shr | .shrc => 256 * ((a + b) % 2) + (if shiftTop i s then 128 else 0) + (a + b) % 256 / 2
  | .sti => match i with
    | .sti n => n.toNat
    | _ => 0
  | .jmpi | .ld | .imm | .rand | .halt | .nop => 0

/-- The register an instruction writes (R14). -/
def destOf : Instr → Option RegNum
  | .add d _ _ | .addc d _ _ | .sub d _ _ | .subc d _ _ => some d
  | .xor d _ _ | .nand d _ _ | .or d _ _ | .and d _ _ | .shr d _ _ | .shrc d _ _ => some d
  | .ld d | .imm d _ | .rand d => some d
  | .cmp _ _ | .cmpc _ _ _ | .st _ _ | .sti _ | .halt | .nop => none
  | .jmp _ _ | .jeq _ _ | .jgt _ _ | .jge _ _ | .jgts _ _ | .jges _ _ => none
  | .jmpi _ | .jeqi _ | .jgti _ | .jgei _ | .jgtsi _ | .jgesi _ => none

/-- Does the instruction use `x[7]` as an address (R14, R153)? -/
def addresses (i : Instr) : Bool := i.opName == .ld || i.opName == .st || i.opName == .sti

/-- Does the instruction read register `r` (R14): as `a`, as `b` when `sel` is 0, or as the address? -/
def reads (i : Instr) (r : RegNum) : Prop :=
  (∃ b, aluOperands i = some (r, b)) ∨ (∃ a, aluOperands i = some (a, .reg r)) ∨ (addresses i = true ∧ r = 7)

/-- The condition of a jump, and none for any other instruction. -/
def jumpCond : Instr → Option Cond
  | .jmp _ _ | .jmpi _ => some .always
  | .jeq _ _ | .jeqi _ => some .jeq
  | .jgt _ _ | .jgti _ => some .jgt
  | .jge _ _ | .jgei _ => some .jge
  | .jgts _ _ | .jgtsi _ => some .jgts
  | .jges _ _ | .jgesi _ => some .jges
  | .add _ _ _ | .addc _ _ _ | .sub _ _ _ | .subc _ _ _ | .cmp _ _ | .cmpc _ _ _ => none
  | .xor _ _ _ | .nand _ _ _ | .or _ _ _ | .and _ _ _ | .shr _ _ _ | .shrc _ _ _ => none
  | .ld _ | .st _ _ | .rand _ | .halt | .nop | .sti _ | .imm _ _ => none

/-- The instruction is a jump whose condition holds on these flags. -/
def taken (i : Instr) (f : Flags) : Prop := ∃ k, jumpCond i = some k ∧ condHolds k f = true

/-- The non-ALU opcodes (R96). -/
def nonAlu (i : Instr) : Bool :=
  i.opName == .ld || i.opName == .rand || i.opName == .halt || i.opName == .nop || i.opName == .jmpi ||
    i.opName == .imm

/-- What a word does as an instruction: the effect of what it decodes to, or its fatal error. -/
def effect (c : Config) (hi lo : Byte) (s : State) : Result :=
  match decode c hi lo with
  | .ok i => exec i s
  | .error e => raise e

/-- The opcodes whose destination field is ignored (R66). -/
def destIgnored (o : OpName) : Bool :=
  o == .halt || o == .nop || o == .cmp || o == .cmpc || o == .st || o == .sti

/-- The opcodes whose whole low byte is ignored (R66). -/
def loIgnored (o : OpName) : Bool := o == .ld || o == .rand || o == .halt || o == .nop

/-- Two words of opcode `o` differ in bits that R66 calls ignored, if at all. -/
def SameButIgnored (o : OpName) (hi lo hi' lo' : Byte) : Prop :=
  opcodeField hi' = opcodeField hi ∧
  (destIgnored o = false → destField hi' = destField hi) ∧
  (loIgnored o = false → lo' = lo ∨ (o.isImmediate = false ∧ selField lo = false ∧ lo' = lo ^^^ 0x08))

/-- How many of the first `j` registered devices stand at address `a`. -/
def callsBefore (a : Byte) (ps : List Port) (j : Nat) : Nat :=
  ((ps.take j).filter fun p => p.addr == a).length

/-- From `s` to `t` the devices at address `a` are called, the device of place `j` with the index `s.draws` plus the number
of devices at `a` before it; no other device is called, and the indices are used up (log entry 6). That an entry at another
address keeps its device's state is the model's choice (log entry 31, DESIGN CHOICE, unsafe). -/
def TakesIndices (a : Byte) (call : Nat → Device → Device) (s t : State) : Prop :=
  (∀ j : Nat, t.devices[j]? = (s.devices[j]?).map fun p =>
    if p.addr = a then { p with dev := call (s.draws + callsBefore a s.devices j) p.dev } else p) ∧
  t.draws = s.draws + callsBefore a s.devices s.devices.length

/-- The byte `v` is the OR of one draw for each device at address `a`, each of that device's own index (log entries 6, 7,
11). -/
def AnswersDraws (a : Byte) (s : State) (v : Byte) : Prop :=
  ∀ i : Nat, i < 8 → (v.getLsbD i = true ↔
    ∃ j p, s.devices[j]? = some p ∧ p.addr = a ∧
      (Config.draw (s.draws + callsBefore a s.devices j)).getLsbD i = true)

/-- The destination tag an R-format record must have (R60). -/
def rDestinationOk (c : Config) (opnum : BitVec 5) (dst : Operand) : Bool :=
  if opnum = c.opNumber .jmp then dst.isCond else dst.isReg

/-- Operand B is a literal outside -8..7 (R60). -/
def literalTooWide : Operand → Bool
  | .int v => decide (v < -8) || decide (7 < v)
  | .reg _ | .label _ | .bare _ | .cond _ => false

/-- Operand B is neither a register nor an integer (R60). -/
def notRegNorInt : Operand → Bool
  | .label _ | .bare _ | .cond _ => true
  | .reg _ | .int _ => false

/-- The value is not tagged `Int` (R61, R62). -/
def notInt : Operand → Bool
  | .int _ => false
  | .reg _ | .label _ | .bare _ | .cond _ => true

/-- The condition under which R60 names a failure of an R-format record. -/
def rFailure (c : Config) (opnum : BitVec 5) (dst a b : Operand) : EncodeError → Bool
  | .badDestination => !rDestinationOk c opnum dst
  | .badOperandA => !a.isReg
  | .literalOutOfRange => literalTooWide b
  | .badOperandB => notRegNorInt b
  | .valueNotInteger => false

/-- The bytes of a two-byte word in the machine's order, the lower address first (R31). -/
def wordBytes (c : Config) (hi lo : Byte) : List Byte :=
  [(orderBytes c.wordOrder hi lo).1, (orderBytes c.wordOrder hi lo).2]

end Sys2Proof.Claims

open Sys2Proof Sys2Proof.Machine Sys2Proof.Claims

/-! ### Encoding and the encoder block -/

/-- Decode and encode agree, for every well-formed instruction under every well-formed numbering. -/
def Obligations.DecodeReadsWhatEncodeWrites : Prop :=
  ∀ (c : Config) (i : Instr), c.wf = true → i.wf = true →
    decode c (encode c i).1 (encode c i).2 = .ok i

/-- The other direction: what the decoder accepts is a well-formed instruction, whose encoding is the word with its
ignored bits cleared (R66, R67). No other bit is dropped. -/
def Obligations.EncodeWritesWhatDecodeReads : Prop :=
  ∀ (c : Config) (hi lo : Byte) (i : Instr), c.wf = true → decode c hi lo = .ok i →
    i.wf = true ∧ encode c i = canonicalWord c hi lo

/-- Words of spec/95_test_vectors.md decode to the instructions they stand for. -/
def Obligations.SpecWordsDecode : Prop :=
  decode Config.default 0x02 0x01 = .ok (.add 2 0 (.reg 1)) ∧
  decode Config.default 0x03 0xC8 = .ok (.add 3 4 (.lit (-8))) ∧
  decode Config.default 0x4F 0x77 = .ok (.and 7 7 (.reg 7)) ∧
  decode Config.default 0x51 0x80 = .ok (.shr 1 0 (.lit 0)) ∧
  decode Config.default 0x65 0xBE = .ok (.jges 3 (.lit (-2))) ∧
  decode Config.default 0x92 0x40 = .ok (.jgti 0x40) ∧
  decode Config.default 0x70 0x34 = .ok (.st 3 (.reg 4)) ∧
  decode Config.default 0x98 0x41 = .ok (.sti 0x41) ∧
  decode Config.default 0x6A 0x00 = .ok (.ld 2) ∧
  decode Config.default 0xA7 0xFE = .ok (.imm 7 0xFE) ∧
  decode Config.default 0x7C 0x00 = .ok (.rand 4) ∧
  decode Config.default 0x80 0x00 = .ok .halt

/-- R65: the illegal encodings are exactly two kinds, and each ends the step with its fatal error, whatever the low byte
and whatever the flags; under the default numbering they are the named high bytes. -/
def Obligations.IllegalWordsAreExactlyTwoKinds : Prop :=
  (∀ (c : Config) (hi lo : Byte), c.wf = true →
    (decode c hi lo = .error (.illegalOpcode hi) ↔ ∀ o, c.opNumber o ≠ opcodeField hi) ∧
    (decode c hi lo = .error (.illegalCondition (destField hi)) ↔
      (opcodeField hi = c.opNumber .jmp ∨ opcodeField hi = c.opNumber .jmpi) ∧
        ∀ k, c.condCode k ≠ destField hi) ∧
    (∀ e, decode c hi lo = .error e → e = .illegalOpcode hi ∨ e = .illegalCondition (destField hi))) ∧
  (∀ hi lo : Byte,
    (decode Config.default hi lo = .error (.illegalOpcode hi) ↔ 0xA8 ≤ hi.toNat) ∧
    (decode Config.default hi lo = .error (.illegalCondition (destField hi)) ↔
      hi = 0x66 ∨ hi = 0x67 ∨ hi = 0x96 ∨ hi = 0x97)) ∧
  (∀ (s : State) (e : DecodeError), s.halted = false →
    decode s.cfg s.fetchWord.hi s.fetchWord.lo = .error e → step s = .fault (faultOf e))

/-- R66: ignored fields are legal with any value and have no effect on the step. -/
def Obligations.IgnoredFieldsHaveNoEffect : Prop :=
  ∀ (c : Config) (o : OpName) (hi lo hi' lo' : Byte) (s : State), c.wf = true →
    c.opOf (opcodeField hi) = some o → SameButIgnored o hi lo hi' lo' →
    effect c hi' lo' s = effect c hi lo s

/-- R51 and R54: the fields of an R-format word as the encoder packs them, operand B a register or a literal, and the
CPU's reading of operand B's field. -/
def Obligations.RFormatFieldsArePacked : Prop :=
  ∀ (c : Config) (opnum : BitVec 5) (dst : Operand) (a : RegNum),
    rDestinationOk c opnum dst = true →
    (∀ n : RegNum, ∃ hi lo : Byte,
      encodeRecord c (.rfmt opnum dst (.reg a) (.reg n)) = .ok (wordBytes c hi lo) ∧
      hi.toNat = opnum.toNat * 8 + dst.dstBits.toNat ∧ lo.toNat = a.toNat * 16 + n.toNat ∧
      regAField lo = a ∧ decodeB lo = .reg n) ∧
    (∀ v : Int, -8 ≤ v → v ≤ 7 → ∃ hi lo : Byte,
      encodeRecord c (.rfmt opnum dst (.reg a) (.int v)) = .ok (wordBytes c hi lo) ∧
      hi.toNat = opnum.toNat * 8 + dst.dstBits.toNat ∧ (lo.toNat : Int) = 128 + a.toNat * 16 + v % 16 ∧
      regAField lo = a ∧ decodeB lo = .lit v)

/-- The fields of an I-format word as the encoder packs them (R52); the value is masked mod 256 and never fails (R55). Which
destinations are accepted for a number other than JMPI, IMM, STI is the model's choice (log entry 21). -/
def Obligations.IFormatFieldsArePacked : Prop :=
  ∀ (c : Config) (opnum : BitVec 5) (dst : Operand) (v : Int), immDstOk c opnum dst = true →
    ∃ hi lo : Byte, encodeRecord c (.ifmt opnum dst (.int v)) = .ok (wordBytes c hi lo) ∧
      hi.toNat = opnum.toNat * 8 + dst.dstBits.toNat ∧ (lo.toNat : Int) = v % 256

/-- R60: when an R-format record fails, and what the failure says; on failure `len` is 0 and no byte is valid. -/
def Obligations.RFormatFailuresAreReported : Prop :=
  ∀ (c : Config) (opnum : BitVec 5) (dst a b : Operand),
    ((∃ bs, encodeRecord c (.rfmt opnum dst a b) = .ok bs) ↔ ∀ e, rFailure c opnum dst a b e = false) ∧
    (∀ e, encodeRecord c (.rfmt opnum dst a b) = .error e →
      rFailure c opnum dst a b e = true ∧
      encoderPorts c (.rfmt opnum dst a b) = ⟨0, none, none, some e⟩)

/-- When an I-format record fails, and what the failure says (R61). Which destinations are accepted for a number other than
JMPI, IMM, STI is the model's choice (log entry 21), of which this says only that a refusal is a bad destination. -/
def Obligations.IFormatFailuresAreReported : Prop :=
  ∀ (c : Config) (opnum : BitVec 5) (dst v : Operand), c.wf = true →
    ((∃ bs, encodeRecord c (.ifmt opnum dst v) = .ok bs) ↔ immDstOk c opnum dst = true ∧ notInt v = false) ∧
    (∀ e, encodeRecord c (.ifmt opnum dst v) = .error e →
      (e = .badDestination ∧ immDstOk c opnum dst = false) ∨ (e = .valueNotInteger ∧ notInt v = true)) ∧
    (immDstOk c (c.opNumber .jmpi) dst = dst.isCond) ∧
    (immDstOk c (c.opNumber .imm) dst = dst.isReg) ∧
    (immDstOk c (c.opNumber .sti) dst = dst.isReg)

/-- R53: a raw-byte record emits its value mod 256 as one byte, and fails exactly when the value is no integer. -/
def Obligations.RawByteIsEmitted : Prop :=
  ∀ (c : Config) (x : Operand),
    (notInt x = true → encodeRecord c (.raw x) = .error .valueNotInteger) ∧
    (∀ v, x = .int v → ∃ b : Byte, encodeRecord c (.raw x) = .ok [b] ∧ (b.toNat : Int) = v % 256)

/-- R63: the encoder packs by the record's shape and the CPU decodes by the opcode's format: an R-format record with the
number of an I-format opcode is packed as asked and decoded as I-format, and the other way about. -/
def Obligations.EncoderDoesNotCrossCheck : Prop :=
  ∀ (c : Config) (o : OpName) (d : RegNum), c.wf = true →
    (o.isImmediate = true → ∀ (a : RegNum) (b : OperandB), b.wf = true → ∃ hi : Byte,
      encodeRecord c (.rfmt (c.opNumber o) (.reg d) (.reg a) (operandB b)) =
        .ok (wordBytes c hi (packOperands a b)) ∧
      opcodeField hi = c.opNumber o ∧ destField hi = d ∧
      decode c hi (packOperands a b) = decodeI c o hi (packOperands a b)) ∧
    (o.isImmediate = false → ∀ v : Int, ∃ hi lo : Byte,
      encodeRecord c (.ifmt (c.opNumber o) (.reg d) (.int v)) = .ok (wordBytes c hi lo) ∧
      opcodeField hi = c.opNumber o ∧ destField hi = d ∧ (lo.toNat : Int) = v % 256 ∧
      decode c hi lo = decodeR c o hi lo)

/-- The encoder block emits, for the record of an instruction, the instruction's canonical word. -/
def Obligations.EncoderBlockRefinesEncode : Prop :=
  ∀ (c : Config) (i : Instr), c.wf = true → i.wf = true →
    encodeRecord c (i.toRecord c) = .ok (encodeBytes c i)

/-- Every instruction has a source form, and it assembles to the instruction's canonical word. -/
def Obligations.SourceFormsAssemble : Prop :=
  ∀ (c : Config) (i : Instr), c.wf = true → i.wf = true →
    assembleStatement c (sourceForm i).1 (sourceForm i).2 = .ok (encodeBytes c i)

/-- R77, R80, R82: the pseudo-instructions `mov rD rS`, `mov rD N`, `j.. rA` and `st rB`. -/
def Obligations.PseudoInstructionsAssemble : Prop :=
  ∀ (c : Config) (d r : RegNum) (n : Byte), c.wf = true →
    assembleStatement c "mov".toList [.reg d, .reg r] = .ok (encodeBytes c (.add d r (.lit 0))) ∧
    assembleStatement c "mov".toList [.reg d, .int n.toNat] = .ok (encodeBytes c (.imm d n)) ∧
    (∀ k op, lookup jumpOps op = some k →
      assembleStatement c op [.reg r] = .ok (encodeBytes c (regJump k r (.lit 0)))) ∧
    assembleStatement c "st".toList [.reg r] = .ok (encodeBytes c (.st 0 (.reg r)))

/-! ### The step -/

/-- A step runs the decoded instruction on the state whose pc has advanced by 2 (R90); with the default parameter the
word is the two raw bytes at `pc` and `pc + 1`, at any address, in the order of `WORD_ORDER`, and the fetch changes
nothing (R31, R34, R38, R91). -/
def Obligations.StepRunsDecodedInstruction : Prop :=
  ∀ (s : State) (i : Instr), s.halted = false →
    decode s.cfg s.fetchWord.hi s.fetchWord.lo = .ok i →
    step s = exec i (s.fetchWord.after.setPc (s.pc + 2)) ∧
    (s.cfg.fetchViaDevices = false →
      s.fetchWord.after = s ∧
      (s.fetchWord.hi, s.fetchWord.lo) =
        orderBytes s.cfg.wordOrder (s.mem.read s.pc.toNat) (s.mem.read ((s.pc.toNat + 1) % 256)))

/-- What the encoder emitted runs: an instruction whose bytes stand at `pc` is executed by the next step. -/
def Obligations.EncodedInstructionRuns : Prop :=
  ∀ (s : State) (i : Instr), s.halted = false → s.cfg.wf = true → s.cfg.fetchViaDevices = false → i.wf = true →
    [s.mem.read s.pc.toNat, s.mem.read ((s.pc.toNat + 1) % 256)] = encodeBytes s.cfg i →
    step s = exec i (s.setPc (s.pc + 2))

/-- R103: a step has exactly one of four outcomes, and is never refused. -/
def Obligations.StepHasOneOfFourOutcomes : Prop :=
  ∀ s : State,
    (s.halted = true ∧ step s = .next s) ∨
    (s.halted = false ∧ ∃ i t, decode s.cfg s.fetchWord.hi s.fetchWord.lo = .ok i ∧ step s = .next t) ∨
    (s.halted = false ∧ ∃ hi, decode s.cfg s.fetchWord.hi s.fetchWord.lo = .error (.illegalOpcode hi) ∧
      step s = .fault (.illegalOpcode hi)) ∨
    (s.halted = false ∧ ∃ d, decode s.cfg s.fetchWord.hi s.fetchWord.lo = .error (.illegalCondition d) ∧
      step s = .fault (.illegalCondition d))

/-- R16: every executed instruction, taken jumps excepted, leaves the pc advanced by 2 mod 256. -/
def Obligations.StepAdvancesPcByTwo : Prop :=
  ∀ (s t : State) (i : Instr), s.halted = false → decode s.cfg s.fetchWord.hi s.fetchWord.lo = .ok i →
    ¬ taken i s.flags → step s = .next t → t.pc.toNat = (s.pc.toNat + 2) % 256

/-- R18: the halted flag is set by HALT; no instruction and no host operation but reset clears it; a step of a halted
machine changes nothing. -/
def Obligations.OnlyHaltSetsHaltedOnlyResetClears : Prop :=
  (∀ (s t : State) (i : Instr), exec i s = .next t → t.halted = (s.halted || i == .halt)) ∧
  (∀ s : State, ∃ t, exec .halt s = .next t ∧ t.halted = true) ∧
  (∀ s : State, s.halted = true → step s = .next s) ∧
  (∀ (s t : State) (image : List Byte), s.load image = some t → t.halted = s.halted) ∧
  (∀ s : State, s.applyReset.halted = false) ∧
  State.reset.halted = false

/-- A halted machine stays as it is for any number of steps (R18, R185, R195). -/
def Obligations.HaltedRunChangesNothing : Prop :=
  ∀ (s : State) (k : Nat), s.halted = true → Host.Core.run Sys2Proof.core k s = .next s

/-- R99 and R101: every instruction answers a next state, whose four flags are those of the opcode's accumulator, the
operand values and `bflag` (R96, R97, R98). It covers every constructor of Instr. -/
def Obligations.EveryInstructionSetsFlagsFromAccumulator : Prop :=
  ∀ (i : Instr) (s : State), ∃ t, exec i s = .next t ∧
    t.flags = flagRule (accumulator i s) (neg (valueA i s)) (bflagNeg i s)

/-- R100: after any non-ALU opcode the flags are `0 0 1 0`. -/
def Obligations.NonAluInstructionsLeaveZeroFlags : Prop :=
  ∀ (i : Instr) (s : State), nonAlu i = true →
    ∃ t, exec i s = .next t ∧ flagBits t.flags = (false, false, true, false)

/-- R14: which registers an instruction writes, and which it reads: a register it does not read does not influence what
it does to anything else. -/
def Obligations.RegistersReadAndWrittenAsListed : Prop :=
  (∀ (i : Instr) (s t : State) (r : RegNum), exec i s = .next t → destOf i ≠ some r → t.reg r = s.reg r) ∧
  (∀ (i : Instr) (s t : State) (r : RegNum) (v : Byte), ¬ reads i r → exec i s = .next t →
    exec i (s.setReg r v) = .next (if destOf i = some r then t else t.setReg r v))

/-- Which instruction can change what outside the registers and the flags (R10's column "written by", R180). The last clause
is of `draws`, which is the model's own field and count (log entry 6, DESIGN CHOICE). -/
def Obligations.EachPieceOfStateHasItsWriters : Prop :=
  ∀ (i : Instr) (s t : State), exec i s = .next t →
    (¬ KeepsMemory s t →
      (i.opName = .st ∨ i.opName = .sti) ∧ s.hasDevice s.dataAddress = false ∧
        KeepsMemoryBut s.dataAddress.toNat s t) ∧
    (t.halted ≠ s.halted → i = .halt) ∧
    (t.pc ≠ s.pc → taken i s.flags) ∧
    (t.devices ≠ s.devices → addresses i = true ∧ s.hasDevice s.dataAddress = true) ∧
    (t.draws ≠ s.draws → i.opName = .rand ∨ (addresses i = true ∧ s.hasDevice s.dataAddress = true))

/-- R23: the registration is configuration: no step changes it; nor the parameters (R7, R31). -/
def Obligations.StepKeepsConfiguration : Prop :=
  ∀ s t : State, step s = .next t →
    t.cfg = s.cfg ∧ sameRegistration s.devices t.devices = true ∧
    t.devices.map Port.addr = s.devices.map Port.addr

/-- The invariant of the machine's data is kept by every step from every state that has it. -/
def Obligations.StepKeepsInvariant : Prop :=
  ∀ s t : State, s.Inv → step s = .next t → t.Inv

/-- The invariant holds right after reset. -/
def Obligations.ResetHasInvariant : Prop := State.reset.Inv

/-- The host's load and a reset at any time keep the invariant. -/
def Obligations.HostOperationsKeepInvariant : Prop :=
  ∀ s : State, s.Inv → s.applyReset.Inv ∧ ∀ (image : List Byte) (t : State), s.load image = some t → t.Inv

/-- No two draws of a run share an index: which index each draw takes, and that it is used up. The index never falls; a RAND
answers `Config.draw` of it and uses it up; LD, ST and STI, and a fetch of a byte where fetches go through devices, use up
one index for each device at the address, the device of place `j` being called with `draws + callsBefore` of `j`, and a
read answers the OR of `Config.draw` of those indices; two devices at one address take different ones, below the index left
for the next draw. The index and the form of the draw are the model's own (log entries 5, 6, 7 and 11). That a device at
another address stays as it was is the model's choice (log entry 31, DESIGN CHOICE, unsafe): each registration entry has a
private state of its own. -/
def Obligations.DrawsAreNeverReused : Prop :=
  (∀ s t : State, step s = .next t → s.draws ≤ t.draws) ∧
  (∀ (s : State) (d : RegNum), ∃ t, exec (.rand d) s = .next t ∧ t.reg d = Config.draw s.draws ∧
    t.draws = s.draws + 1) ∧
  (∀ (s : State) (d : RegNum), ∃ t, exec (.ld d) s = .next t ∧
    TakesIndices s.dataAddress (fun n x => (readDevice n x).2) s t ∧
    (s.hasDevice s.dataAddress = true → AnswersDraws s.dataAddress s (t.reg d))) ∧
  (∀ (s : State) (a : RegNum) (b : OperandB), ∃ t, exec (.st a b) s = .next t ∧
    TakesIndices s.dataAddress
      (fun n => writeDevice n (BitVec.ofNat 8 ((s.reg a).toNat + (s.operandB b).toNat))) s t) ∧
  (∀ (s : State) (v : Byte), ∃ t, exec (.sti v) s = .next t ∧
    TakesIndices s.dataAddress (fun n => writeDevice n v) s t) ∧
  (∀ (s : State) (a : Byte),
    (s.cfg.fetchViaDevices = true →
      TakesIndices a (fun n x => (readDevice n x).2) s (s.fetch a).2 ∧
      (s.hasDevice a = true → AnswersDraws a s (s.fetch a).1)) ∧
    (s.cfg.fetchViaDevices = false → (s.fetch a).2 = s)) ∧
  (∀ (a : Byte) (ps : List Port) (j k : Nat) (p : Port), j < k → ps[j]? = some p → p.addr = a →
    callsBefore a ps j < callsBefore a ps k ∧ callsBefore a ps k ≤ callsBefore a ps ps.length)

/-! ### Arithmetic -/

/-- R110: ADD. -/
def Obligations.AddWritesSum : Prop :=
  ∀ (s : State) (d a : RegNum) (b : OperandB),
    (∃ t, exec (.add d a b) s = .next t ∧
      (t.reg d).toNat = ((s.reg a).toNat + (s.operandB b).toNat) % 256 ∧
      t.flags = { carry := decide (256 ≤ (s.reg a).toNat + (s.operandB b).toNat)
                  sign := neg (t.reg d)
                  zero := decide ((t.reg d).toNat = 0)
                  overflow := outOfRange ((s.reg a).toInt + (s.operandB b).toInt) } ∧
      OnlyRegisterAndFlags d s t) ∧
    (b.wf = true → WrittenAs "add".toList [.reg d, .reg a, tokenB b] (.add d a b) (packHi 0 d) (packOperands a b)) ∧
    WrittenAs "mov".toList [.reg d, .reg a] (.add d a (.lit 0)) (packHi 0 d) (packOperands a (.lit 0))

/-- R111: ADDC. -/
def Obligations.AddcWritesSumWithCarry : Prop :=
  ∀ (s : State) (d a : RegNum) (b : OperandB),
    (∃ t, exec (.addc d a b) s = .next t ∧
      (t.reg d).toNat = ((s.reg a).toNat + (s.operandB b).toNat + s.flags.carry.toNat) % 256 ∧
      t.flags = flagRule ((s.reg a).toNat + (s.operandB b).toNat + s.flags.carry.toNat)
        (neg (s.reg a)) (neg (s.operandB b)) ∧
      OnlyRegisterAndFlags d s t) ∧
    (b.wf = true →
      WrittenAs "addc".toList [.reg d, .reg a, tokenB b] (.addc d a b) (packHi 1 d) (packOperands a b))

/-- R112: SUB. With `OVF_B_SOURCE = inverted` the overflow flag is the signed overflow of `a - b`. -/
def Obligations.SubWritesDifference : Prop :=
  ∀ (s : State) (d a : RegNum) (b : OperandB),
    (∃ t, exec (.sub d a b) s = .next t ∧
      (t.reg d).toNat = ((s.reg a).toNat + 256 - (s.operandB b).toNat) % 256 ∧
      t.flags.carry = decide ((s.operandB b).toNat ≤ (s.reg a).toNat) ∧
      t.flags.sign = neg (t.reg d) ∧
      t.flags.zero = decide (s.reg a = s.operandB b) ∧
      (s.cfg.ovfBSource = .inverted →
        t.flags.overflow = outOfRange ((s.reg a).toInt - (s.operandB b).toInt)) ∧
      (s.cfg.ovfBSource = .raw →
        t.flags.overflow = (neg (s.reg a) == neg (s.operandB b) && neg (s.reg a) != neg (t.reg d))) ∧
      OnlyRegisterAndFlags d s t) ∧
    (b.wf = true → WrittenAs "sub".toList [.reg d, .reg a, tokenB b] (.sub d a b) (packHi 2 d) (packOperands a b))

/-- R113: SUBC. The carry stands in place of the fixed 1 (R117). -/
def Obligations.SubcWritesDifferenceWithBorrow : Prop :=
  ∀ (s : State) (d a : RegNum) (b : OperandB),
    (∃ t, exec (.subc d a b) s = .next t ∧
      (t.reg d).toNat = ((s.reg a).toNat + 255 - (s.operandB b).toNat + s.flags.carry.toNat) % 256 ∧
      t.flags.carry = decide ((s.operandB b).toNat + (1 - s.flags.carry.toNat) ≤ (s.reg a).toNat) ∧
      t.flags.sign = neg (t.reg d) ∧
      t.flags.zero = decide ((t.reg d).toNat = 0) ∧
      t.flags.overflow =
        ((if s.cfg.ovfBSource = .inverted then neg (s.reg a) != neg (s.operandB b)
          else neg (s.reg a) == neg (s.operandB b)) && neg (s.reg a) != neg (t.reg d)) ∧
      OnlyRegisterAndFlags d s t) ∧
    (b.wf = true →
      WrittenAs "subc".toList [.reg d, .reg a, tokenB b] (.subc d a b) (packHi 3 d) (packOperands a b))

/-- R114: CMP. The flags are those of SUB and no register changes; after it the conditions are the orders of R114. The
CPU ignores the destination field. -/
def Obligations.CmpSetsFlagsOfDifference : Prop :=
  ∀ (s : State) (a : RegNum) (b : OperandB),
    (∃ t, exec (.cmp a b) s = .next t ∧ OnlyFlags s t ∧
      (∀ (d : RegNum) (u : State), exec (.sub d a b) s = .next u → t.flags = u.flags) ∧
      condHolds .jeq t.flags = decide (s.reg a = s.operandB b) ∧
      condHolds .jge t.flags = decide ((s.operandB b).toNat ≤ (s.reg a).toNat) ∧
      condHolds .jgt t.flags = decide ((s.operandB b).toNat < (s.reg a).toNat) ∧
      (s.cfg.ovfBSource = .inverted →
        condHolds .jges t.flags = decide ((s.operandB b).toInt ≤ (s.reg a).toInt) ∧
        condHolds .jgts t.flags = decide ((s.operandB b).toInt < (s.reg a).toInt))) ∧
    (b.wf = true → WrittenAs "cmp".toList [.reg a, tokenB b] (.cmp a b) (packHi 4 0) (packOperands a b) ∧
      ∀ d, decode Config.default (packHi 4 d) (packOperands a b) = .ok (.cmp a b))

/-- R115: CMPC. The flags are those of SUBC and no register changes, the named destination among them. -/
def Obligations.CmpcSetsFlagsOfDifferenceWithBorrow : Prop :=
  ∀ (s : State) (d a : RegNum) (b : OperandB),
    (∃ t, exec (.cmpc d a b) s = .next t ∧ OnlyFlags s t ∧
      (∀ (r : RegNum) (u : State), exec (.subc r a b) s = .next u → t.flags = u.flags) ∧
      t.flags.carry = decide ((s.operandB b).toNat + (1 - s.flags.carry.toNat) ≤ (s.reg a).toNat)) ∧
    (b.wf = true →
      WrittenAs "cmpc".toList [.reg d, .reg a, tokenB b] (.cmpc d a b) (packHi 5 d) (packOperands a b))

/-- R144: what the conditions mean after CMP or SUB of `a` and `b`, under both values of `OVF_B_SOURCE`. -/
def Obligations.ConditionsAfterCompareAreOrders : Prop :=
  ∀ (s : State) (d a : RegNum) (b : OperandB) (i : Instr), i = .cmp a b ∨ i = .sub d a b →
    ∃ t, exec i s = .next t ∧
      condHolds .jeq t.flags = decide (s.reg a = s.operandB b) ∧
      condHolds .jge t.flags = decide ((s.operandB b).toNat ≤ (s.reg a).toNat) ∧
      condHolds .jgt t.flags = decide ((s.operandB b).toNat < (s.reg a).toNat) ∧
      (s.cfg.ovfBSource = .inverted →
        condHolds .jges t.flags = decide ((s.operandB b).toInt ≤ (s.reg a).toInt) ∧
        condHolds .jgts t.flags = decide ((s.operandB b).toInt < (s.reg a).toInt)) ∧
      (s.cfg.ovfBSource = .raw →
        condHolds .jges t.flags =
          ((neg (s.reg a) == neg (s.operandB b) && neg (s.reg a) != t.flags.sign) == t.flags.sign))

/-! ### Logic and shift -/

/-- R120 to R124: XOR, NAND, OR, AND. Bit 8 of the accumulator is `LOGIC_BIT8`; the overflow flag follows the one
formula, which comes to R124's table. -/
def Obligations.LogicWritesBitwiseResult : Prop :=
  ∀ (s : State) (d a : RegNum) (b : OperandB),
    (∀ (i : Instr) (result : Byte) (v : Bool),
      ((i, result, v) = (.xor d a b, s.reg a ^^^ s.operandB b, neg (s.reg a) && neg (s.operandB b)) ∨
        (i, result, v) = (.nand d a b, ~~~(s.reg a &&& s.operandB b), neg (s.reg a) == neg (s.operandB b)) ∨
        (i, result, v) = (.or d a b, s.reg a ||| s.operandB b, false) ∨
        (i, result, v) = (.and d a b, s.reg a &&& s.operandB b, false)) →
      ∃ t, exec i s = .next t ∧ t.reg d = result ∧
        flagBits t.flags = (s.cfg.logicBit8, neg result, decide (result = 0), v) ∧ OnlyRegisterAndFlags d s t) ∧
    (b.wf = true →
      WrittenAs "xor".toList [.reg d, .reg a, tokenB b] (.xor d a b) (packHi 6 d) (packOperands a b) ∧
      WrittenAs "nand".toList [.reg d, .reg a, tokenB b] (.nand d a b) (packHi 7 d) (packOperands a b) ∧
      WrittenAs "or".toList [.reg d, .reg a, tokenB b] (.or d a b) (packHi 8 d) (packOperands a b) ∧
      WrittenAs "and".toList [.reg d, .reg a, tokenB b] (.and d a b) (packHi 9 d) (packOperands a b))

/-- R130: SHR shifts the sum right by one; under `SHR_WIDE = kept` bit 8 of the sum enters at bit 7 (R132). -/
def Obligations.ShrShiftsSum : Prop :=
  ∀ (s : State) (d a : RegNum) (b : OperandB),
    (∃ t, exec (.shr d a b) s = .next t ∧
      (let sum := (s.reg a).toNat + (s.operandB b).toNat
       let top := s.cfg.shrWide == .kept && decide (256 ≤ sum)
       (t.reg d).toNat = (if top then 128 else 0) + sum % 256 / 2 ∧
       flagBits t.flags = (decide (sum % 2 = 1), top, decide (sum % 256 ≤ 1) && !top,
         neg (s.reg a) == neg (s.operandB b) && neg (s.reg a) != top)) ∧
      OnlyRegisterAndFlags d s t) ∧
    (b.wf = true →
      WrittenAs "shr".toList [.reg d, .reg a, tokenB b] (.shr d a b) (packHi 10 d) (packOperands a b))

/-- R131: SHRC shifts the sum right by one, the carry flag into bit 7. -/
def Obligations.ShrcShiftsSumThroughCarry : Prop :=
  ∀ (s : State) (d a : RegNum) (b : OperandB),
    (∃ t, exec (.shrc d a b) s = .next t ∧
      (let sum := (s.reg a).toNat + (s.operandB b).toNat
       let top := s.flags.carry || (s.cfg.shrWide == .kept && decide (256 ≤ sum))
       (t.reg d).toNat = (if top then 128 else 0) + sum % 256 / 2 ∧
       flagBits t.flags = (decide (sum % 2 = 1), top, decide (sum % 256 ≤ 1) && !top,
         neg (s.reg a) == neg (s.operandB b) && neg (s.reg a) != top)) ∧
      OnlyRegisterAndFlags d s t) ∧
    (b.wf = true →
      WrittenAs "shrc".toList [.reg d, .reg a, tokenB b] (.shrc d a b) (packHi 11 d) (packOperands a b))

/-! ### Jumps -/

/-- R142: the six conditions on the flags; a code that is none of them is a fatal decode error of JMP and of JMPI. -/
def Obligations.ConditionsReadFlags : Prop :=
  (∀ f : Flags,
    condHolds .always f = true ∧
    (condHolds .jeq f = true ↔ f.zero = true) ∧
    (condHolds .jgt f = true ↔ f.carry = true ∧ f.zero = false) ∧
    (condHolds .jge f = true ↔ f.carry = true) ∧
    (condHolds .jgts f = true ↔ f.zero = false ∧ f.overflow = f.sign) ∧
    (condHolds .jges f = true ↔ f.overflow = f.sign)) ∧
  (∀ (c : Config) (d : BitVec 3) (lo : Byte), c.wf = true → (∀ k, c.condCode k ≠ d) →
    decode c (packHi (c.opNumber .jmp) d) lo = .error (.illegalCondition d) ∧
    decode c (packHi (c.opNumber .jmpi) d) lo = .error (.illegalCondition d))

/-- R140: JMP under each of its six conditions (the constructors jmp, jeq, jgt, jge, jgts, jges): the condition is read
from the old flags, the target is the sum mod 256, and the flags are those of the sum, taken or not. A word with a code
that is no condition is a fatal decode error. -/
def Obligations.RegisterJumpsTakeSum : Prop :=
  ∀ (s : State) (k : Cond) (a : RegNum) (b : OperandB),
    (∃ t, exec (regJump k a b) s = .next t ∧
      t.pc.toNat = (if condHolds k s.flags then ((s.reg a).toNat + (s.operandB b).toNat) % 256 else s.pc.toNat) ∧
      t.flags = flagRule ((s.reg a).toNat + (s.operandB b).toNat) (neg (s.reg a)) (neg (s.operandB b)) ∧
      OnlyPcAndFlags s t) ∧
    (b.wf = true → ∀ op, lookup jumpOps op = some k →
      WrittenAs op [.reg a, tokenB b] (regJump k a b) (packHi 12 (Config.default.condCode k)) (packOperands a b)) ∧
    (∀ op, lookup jumpOps op = some k →
      WrittenAs op [.reg a] (regJump k a (.lit 0)) (packHi 12 (Config.default.condCode k))
        (packOperands a (.lit 0))) ∧
    (∀ (d : BitVec 3) (lo : Byte), (∀ j, Config.default.condCode j ≠ d) →
      decode Config.default (packHi 12 d) lo = .error (.illegalCondition d))

/-- R141: JMPI under each of its six conditions (the constructors jmpi, jeqi, jgti, jgei, jgtsi, jgesi): the target is the
immediate, and the flags are `0 0 1 0`, taken or not. A word with a code that is no condition is a fatal decode error. -/
def Obligations.ImmediateJumpsTakeImmediate : Prop :=
  ∀ (s : State) (k : Cond) (target : Byte),
    (∃ t, exec (immJump k target) s = .next t ∧
      t.pc = (if condHolds k s.flags then target else s.pc) ∧
      flagBits t.flags = (false, false, true, false) ∧ OnlyPcAndFlags s t) ∧
    (∀ (op : Ident) (v : Int), lookup jumpOps op = some k → v % 256 = target.toNat →
      WrittenAs op [.int v] (immJump k target) (packHi 18 (Config.default.condCode k)) target) ∧
    (∀ op, lookup jumpOps op = some k → LabelWrittenAs op [] (packHi 18 (Config.default.condCode k)) target) ∧
    (∀ d : BitVec 3, (∀ j, Config.default.condCode j ≠ d) →
      decode Config.default (packHi 18 d) target = .error (.illegalCondition d))

/-! ### Memory and devices -/

/-- A data read (R36). At an address without a device it reads the raw byte and changes nothing; else every device there
is read exactly once, in registration order (log entry 12), and no other device is called; the answer is the OR of their
bytes, and the CPU's state does not change. That each call takes an index of the model's own field `draws`, and which one,
is the model's choice (log entry 6, DESIGN CHOICE); so is that an entry at another address keeps its device's state (log
entry 31, DESIGN CHOICE, unsafe: each entry has a private state of its own). -/
def Obligations.DataReadDispatchesToDevices : Prop :=
  ∀ (s : State) (a : Byte),
    ((∀ p ∈ s.devices, p.addr ≠ a) → s.memRead a = (s.mem.read a.toNat, s)) ∧
    ((∃ p ∈ s.devices, p.addr = a) →
      (∀ i : Nat, i < 8 → ((s.memRead a).1.getLsbD i = true ↔
        ∃ j p, s.devices[j]? = some p ∧ p.addr = a ∧
          (readDevice (s.draws + callsBefore a s.devices j) p.dev).1.getLsbD i = true)) ∧
      (∀ j : Nat, (s.memRead a).2.devices[j]? = (s.devices[j]?).map fun p =>
        if p.addr = a then { p with dev := (readDevice (s.draws + callsBefore a s.devices j) p.dev).2 } else p) ∧
      (s.memRead a).2.draws = s.draws + callsBefore a s.devices s.devices.length ∧
      (s.memRead a).2 = { s with devices := (s.memRead a).2.devices, draws := (s.memRead a).2.draws })

/-- A data write (R37). At an address without a device it writes the raw byte and no other; else every device there is
written exactly once, in registration order (log entry 12), no other device is called, and memory does not change. That
each call takes an index of the model's own field `draws`, and which one, is the model's choice (log entry 6, DESIGN
CHOICE); it shows in the free frame of a write that names row 15 (log entry 8). That an entry at another address keeps its
device's state is the model's choice too (log entry 31, DESIGN CHOICE, unsafe: each entry has a private state of its
own). -/
def Obligations.DataWriteDispatchesToDevices : Prop :=
  ∀ (s : State) (a v : Byte),
    ((∀ p ∈ s.devices, p.addr ≠ a) →
      KeepsMemoryBut a.toNat s (s.memWrite a v) ∧ KeepsOutside s (s.memWrite a v) ∧
      (s.mem.wf = true → (s.memWrite a v).mem.read a.toNat = v)) ∧
    ((∃ p ∈ s.devices, p.addr = a) →
      (∀ j : Nat, (s.memWrite a v).devices[j]? = (s.devices[j]?).map fun p =>
        if p.addr = a then { p with dev := writeDevice (s.draws + callsBefore a s.devices j) v p.dev } else p) ∧
      s.memWrite a v = { s with devices := (s.memWrite a v).devices, draws := (s.memWrite a v).draws })

/-- The character device (R182): a write appends the byte to the output; a read answers a draw. After reset the device
stands at address 254 with nothing written. That the read answers `Config.draw` of the call's index is the model's form of
the draw (log entry 7, DESIGN CHOICE), and that the output is the list of the bytes written is its choice (log entry 10,
DESIGN CHOICE). -/
def Obligations.CharacterDeviceRecordsWrites : Prop :=
  ∀ (n : Nat) (v : Byte) (printed : List Byte),
    writeDevice n v (.charOut printed) = .charOut (printed ++ [v]) ∧
    (readDevice n (.charOut printed)).1 = Config.draw n ∧ State.reset.devices[0]? = some ⟨254, .charOut []⟩

/-- The pixel device (R183): 0xFF displays and clears the back-buffer and sets no pixel; any other byte whose row the grid
has sets the one pixel and displays nothing; no write but 0xFF displays; a read answers a draw. After reset the device
stands at address 253 with its back-buffer clear. That the read answers `Config.draw` of the call's index is the model's
form of the draw (log entry 7, DESIGN CHOICE), and that the frame displayed is kept in `shown` is its choice (log entry 9,
DESIGN CHOICE). -/
def Obligations.PixelDeviceSetsAndFlushes : Prop :=
  (∀ (n : Nat) (p : Pixels),
    (writePixels n 0xFF p).shown = some p.back ∧
    ∀ (x : Fin 16) (y : Fin 15), (writePixels n 0xFF p).back[x][y] = false) ∧
  (∀ (n : Nat) (v : Byte) (p : Pixels), v ≠ 0xFF →
    (writePixels n v p).shown = p.shown ∧
    (v.toNat % 16 < 15 → ∀ (x : Fin 16) (y : Fin 15),
      (writePixels n v p).back[x][y] =
        (p.back[x][y] || (decide (x.val = v.toNat / 16) && decide (y.val = v.toNat % 16))))) ∧
  (∀ (n : Nat) (p : Pixels), (readDevice n (.pixelBuffer p)).1 = Config.draw n) ∧
  (∃ p : Pixels, State.reset.devices[1]? = some ⟨253, .pixelBuffer p⟩ ∧
    ∀ (x : Fin 16) (y : Fin 15), p.back[x][y] = false)

/-- R150: LD. The byte comes from the old `x[7]` through device dispatch; the flags say nothing of it. -/
def Obligations.LdLoadsFromRegisterSeven : Prop :=
  ∀ (s : State) (d : RegNum),
    (∃ t, exec (.ld d) s = .next t ∧
      t.reg d = (s.memRead (s.reg 7)).1 ∧
      (s.hasDevice (s.reg 7) = false →
        t.reg d = s.mem.read (s.reg 7).toNat ∧ t.devices = s.devices ∧ t.draws = s.draws) ∧
      (s.hasDevice (s.reg 7) = true →
        t.devices = (s.memRead (s.reg 7)).2.devices ∧ t.draws = (s.memRead (s.reg 7)).2.draws) ∧
      flagBits t.flags = (false, false, true, false) ∧
      KeepsRegistersBut d s t ∧ t.pc = s.pc ∧ t.halted = s.halted ∧ KeepsMemory s t ∧ t.cfg = s.cfg) ∧
    WrittenAs "ld".toList [.reg d] (.ld d) (packHi 13 d) 0 ∧
    (∀ lo, decode Config.default (packHi 13 d) lo = .ok (.ld d))

/-- R151: ST stores the sum of its operands at `x[7]`, with the flags of the sum. -/
def Obligations.StStoresSum : Prop :=
  ∀ (s : State) (a : RegNum) (b : OperandB),
    (∃ t, exec (.st a b) s = .next t ∧
      StoresByte (BitVec.ofNat 8 ((s.reg a).toNat + (s.operandB b).toNat)) s t ∧
      t.flags = flagRule ((s.reg a).toNat + (s.operandB b).toNat) (neg (s.reg a)) (neg (s.operandB b)) ∧
      StoreFrame s t) ∧
    (b.wf = true → WrittenAs "st".toList [.reg a, tokenB b] (.st a b) (packHi 14 0) (packOperands a b) ∧
      ∀ d, decode Config.default (packHi 14 d) (packOperands a b) = .ok (.st a b)) ∧
    WrittenAs "st".toList [.reg a] (.st 0 (.reg a)) (packHi 14 0) (packOperands 0 (.reg a))

/-- R152: STI stores the immediate at `x[7]`; its flags are `C = 0`, `S = V = imm[7]`, `Z = 1` iff the immediate is 0. -/
def Obligations.StiStoresImmediate : Prop :=
  ∀ (s : State) (n : Byte),
    (∃ t, exec (.sti n) s = .next t ∧ StoresByte n s t ∧
      flagBits t.flags = (false, neg n, decide (n = 0), neg n) ∧ StoreFrame s t) ∧
    (∀ v : Int, v % 256 = n.toNat → WrittenAs "st".toList [.int v] (.sti n) (packHi 19 0) n) ∧
    LabelWrittenAs "st".toList [] (packHi 19 0) n ∧
    (∀ d, decode Config.default (packHi 19 d) n = .ok (.sti n))

/-- R198: the one-register store adds `x[0]`; `st rB 0` stores `x[B]` exactly. -/
def Obligations.OneRegisterStoreAddsRegisterZero : Prop :=
  ∀ (s : State) (r : RegNum), s.hasDevice (s.reg 7) = false → s.mem.wf = true →
    (∃ i hi lo t, WrittenAs "st".toList [.reg r] i hi lo ∧ exec i s = .next t ∧
      (t.mem.read (s.reg 7).toNat).toNat = ((s.reg 0).toNat + (s.reg r).toNat) % 256) ∧
    (∃ i hi lo t, WrittenAs "st".toList [.reg r, .int 0] i hi lo ∧ exec i s = .next t ∧
      t.mem.read (s.reg 7).toNat = s.reg r)

/-- A load after a store of the byte `v`, by ST or by STI, at an address without a device, gives that byte (R40, R42), and
so does a fetch; at a device's address the fetch reads what it read before (R37, R38, R42). -/
def Obligations.StoreIsSeenByNextLoadAndFetch : Prop :=
  ∀ (s t : State) (i : Instr) (v : Byte) (d : RegNum), s.mem.wf = true → s.cfg.fetchViaDevices = false →
    (i = .sti v ∨
      ∃ a b, i = .st a b ∧ v = BitVec.ofNat 8 ((s.reg a).toNat + (s.operandB b).toNat)) →
    exec i s = .next t →
    (s.hasDevice (s.reg 7) = false →
      (t.fetch (s.reg 7)).1 = v ∧ ∃ u, exec (.ld d) t = .next u ∧ u.reg d = v) ∧
    (s.hasDevice (s.reg 7) = true → ∀ x : Byte, (t.fetch x).1 = (s.fetch x).1)

/-! ### IMM, RAND, HALT, NOP -/

/-- R160: IMM. -/
def Obligations.ImmWritesImmediate : Prop :=
  ∀ (s : State) (d : RegNum) (n : Byte),
    (∃ t, exec (.imm d n) s = .next t ∧ t.reg d = n ∧ flagBits t.flags = (false, false, true, false) ∧
      OnlyRegisterAndFlags d s t) ∧
    (∀ v : Int, v % 256 = n.toNat →
      WrittenAs "imm".toList [.reg d, .int v] (.imm d n) (packHi 20 d) n ∧
      WrittenAs "mov".toList [.reg d, .int v] (.imm d n) (packHi 20 d) n) ∧
    LabelWrittenAs "imm".toList [.reg d] (packHi 20 d) n ∧ LabelWrittenAs "mov".toList [.reg d] (packHi 20 d) n

/-- RAND writes the free byte of the next index, whatever that byte is, and uses the index up (R161). The form of the draw is
the model's (log entries 5 and 6). -/
def Obligations.RandWritesFreeByte : Prop :=
  ∀ (s : State) (d : RegNum),
    (∃ t, exec (.rand d) s = .next t ∧ t.reg d = Config.draw s.draws ∧ t.draws = s.draws + 1 ∧
      flagBits t.flags = (false, false, true, false) ∧ KeepsRegistersBut d s t ∧ t.pc = s.pc ∧
      t.halted = s.halted ∧ KeepsMemory s t ∧ t.devices = s.devices ∧ t.cfg = s.cfg) ∧
    WrittenAs "rand".toList [.reg d] (.rand d) (packHi 15 d) 0 ∧
    (∀ lo, decode Config.default (packHi 15 d) lo = .ok (.rand d))

/-- R162: HALT completes its own step with the flags `0 0 1 0`, and no later step changes anything. -/
def Obligations.HaltEndsRun : Prop :=
  (∀ s : State, ∃ t, exec .halt s = .next t ∧ t.halted = true ∧
    flagBits t.flags = (false, false, true, false) ∧ KeepsRegisters s t ∧ t.pc = s.pc ∧ KeepsMemory s t ∧
    KeepsOutside s t ∧ ∀ k, Host.Core.run Sys2Proof.core k t = .next t) ∧
  WrittenAs "halt".toList [] .halt (packHi 16 0) 0 ∧
  (∀ d lo, decode Config.default (packHi 16 d) lo = .ok .halt)

/-- R163: NOP changes nothing but the flags, which it sets to `0 0 1 0`. -/
def Obligations.NopSetsZeroFlagOnly : Prop :=
  (∀ s : State, ∃ t, exec .nop s = .next t ∧ OnlyFlags s t ∧ flagBits t.flags = (false, false, true, false)) ∧
  WrittenAs "nop".toList [] .nop (packHi 17 0) 0 ∧
  (∀ d lo, decode Config.default (packHi 17 d) lo = .ok .nop)

/-! ### Operands, reset, load -/

/-- R94: the operand values that an R-format word gives. -/
def Obligations.OperandFieldsGiveValues : Prop :=
  ∀ (s : State) (lo : Byte),
    (selField lo = decide (128 ≤ lo.toNat)) ∧
    ((regAField lo).toNat = lo.toNat / 16 % 8) ∧
    (lo.toNat < 128 → s.operandB (decodeB lo) = s.reg (BitVec.ofNat 3 (lo.toNat % 16 % 8))) ∧
    (128 ≤ lo.toNat → (s.operandB (decodeB lo)).toNat =
      if lo.toNat % 16 < 8 then lo.toNat % 16 else lo.toNat % 16 + 240)

/-- R11: reset leaves all CPU state zero, so that a JEQ executed first is not taken and a JGES is; and a reset applied at
any time does the same (R190), with the parameters as they were. -/
def Obligations.ResetClearsAllState : Prop :=
  ((∀ r, State.reset.reg r = 0) ∧ State.reset.pc = 0 ∧ flagBits State.reset.flags = (false, false, false, false) ∧
    State.reset.halted = false ∧ (∀ a, State.reset.mem.read a = 0) ∧
    condHolds .jeq State.reset.flags = false ∧ condHolds .jges State.reset.flags = true) ∧
  ∀ s : State,
    (∀ r, s.applyReset.reg r = 0) ∧ s.applyReset.pc = 0 ∧
    flagBits s.applyReset.flags = (false, false, false, false) ∧ s.applyReset.halted = false ∧
    (∀ a, s.applyReset.mem.read a = 0) ∧ s.applyReset.cfg = s.cfg

/-- A reset of a running machine (R190) keeps the registration, address by address in its order (R23), and puts every
device in its own initial state. What that state is, beyond the clear back-buffer of R183, is the model's choice (DESIGN
CHOICE): no frame displayed (log entry 9), no call recorded of a device that the spec does not describe (log entry 11), no
printed byte recorded (log entry 32). -/
def Obligations.ResetRestoresDevices : Prop :=
  (∀ s : State, s.applyReset.devices = s.devices.map fun p => { p with dev := initialDevice p.dev }) ∧
  (∀ s : State, sameRegistration s.devices s.applyReset.devices = true) ∧
  (∀ printed : List Byte, initialDevice (.charOut printed) = .charOut []) ∧
  (∀ p : Pixels, initialDevice (.pixelBuffer p) = .pixelBuffer ⟨clearFrame, none⟩) ∧
  (∀ (x : Fin 16) (y : Fin 15), clearFrame[x][y] = false) ∧
  (∀ (id : Nat) (calls : List DeviceCall), initialDevice (.other id calls) = .other id [])

/-- R43 and R193: the load operation. -/
def Obligations.LoadCopiesImage : Prop :=
  ∀ (s : State) (image : List Byte),
    (256 ≤ image.length → s.load image = none) ∧
    (image.length < 256 → ∃ t, s.load image = some t ∧
      KeepsRegisters s t ∧ t.pc = s.pc ∧ t.flags = s.flags ∧ t.halted = s.halted ∧ KeepsOutside s t ∧
      (s.mem.wf = true → ∀ a, t.mem.read a = image.getD a (s.mem.read a)) ∧
      (∀ a, image.length ≤ a → t.mem.read a = s.mem.read a)) ∧
    s.load [] = some s

/-- The addresses of pass 1 are the places of the bytes of pass 2 (R85): when an assembly succeeds, its image is as long as
the running address of pass 1 says, which is at most 255 bytes, and no label lies past its end, so that labels are 8-bit
addresses (R202). That a source with a longer image fails to assemble is the model's choice (log entry 30, DESIGN
CHOICE). -/
def Obligations.ImageIsAsLongAsRunningAddress : Prop :=
  ∀ (c : Config) (source : List Char) (image : List Byte), assemble c source = .ok image →
    image.length ≤ 255 ∧
    ∃ st, passOne c 1 (sourceLines source []) ⟨0, [], [], []⟩ = .ok st ∧ image.length = st.addr ∧
      ∀ p ∈ st.labels, p.2 ≤ image.length
end

