-- ==== Sys2Proof/Laws/Alu.lean ====
section
/-! SUPPORT. The accumulators and the flags as exact arithmetic on numbers: the bridge from bit vectors to Nat. -/

namespace Sys2Proof.Machine

/-- Bit 7 of a byte is its sign. -/
theorem byte_bit7 (v : Byte) : v.getLsbD 7 = decide (128 ≤ v.toNat) := by
  have h := BitVec.msb_eq_decide v
  rw [BitVec.msb_eq_getLsbD_last] at h
  simpa using h

/-- Bit 8 of the accumulator. -/
theorem acc_bit8 (v : Acc) : v.getLsbD 8 = decide (256 ≤ v.toNat) := by
  have h := BitVec.msb_eq_decide v
  rw [BitVec.msb_eq_getLsbD_last] at h
  simpa using h

/-- The low byte of the accumulator is its value mod 256. -/
theorem lowByte_toNat (v : Acc) : (lowByte v).toNat = v.toNat % 256 := by simp [lowByte]

/-- Bit 7 of the accumulator is the sign of its low byte. -/
theorem acc_bit7 (v : Acc) : v.getLsbD 7 = decide (128 ≤ v.toNat % 256) := by
  rw [← lowByte_toNat, ← byte_bit7]
  simp [lowByte]

/-- The adder computes the exact sum (R110, R111): it always fits 9 bits. -/
theorem adder_toNat (a b : Byte) (cin : Bool) : (adder a b cin).toNat = a.toNat + b.toNat + cin.toNat := by
  have ha := a.isLt
  have hb := b.isLt
  cases cin <;> simp [adder, BitVec.toNat_add] <;> omega

/-- The complement of a byte (R116). -/
theorem not_toNat (b : Byte) : (~~~b).toNat = 255 - b.toNat := by
  simp [BitVec.toNat_not]

/-- The subtract group computes `a - b - (1 - cin) + 256` (R116). -/
theorem subtracter_toNat (a b : Byte) (cin : Bool) :
    (subtracter a b cin).toNat = a.toNat + (255 - b.toNat) + cin.toNat := by
  rw [subtracter, adder_toNat, not_toNat]

/-- The flags as conditions on numbers (R99). -/
theorem flagsOf_eq (out : Acc) (a b : Byte) :
    flagsOf out a b =
      { carry := decide (256 ≤ out.toNat)
        sign := decide (128 ≤ out.toNat % 256)
        zero := decide (out.toNat % 256 = 0)
        overflow := (decide (128 ≤ a.toNat) == decide (128 ≤ b.toNat)) &&
          (decide (128 ≤ a.toNat) != decide (128 ≤ out.toNat % 256)) } := by
  have hz : (lowByte out == 0) = decide (out.toNat % 256 = 0) := by
    rw [← lowByte_toNat, Bool.eq_iff_iff]
    simp [← BitVec.toNat_inj]
  simp only [flagsOf, acc_bit8, acc_bit7, byte_bit7, hz]

/-- The flags of a non-ALU opcode (R100). -/
@[simp] theorem flagsOf_zero : flagsOf 0 0 0 = ⟨false, false, true, false⟩ := by decide

/-- The signed reading of a byte (R8). -/
theorem byte_toInt (v : Byte) : v.toInt = if v.toNat < 128 then (v.toNat : Int) else (v.toNat : Int) - 256 := by
  rw [BitVec.toInt_eq_toNat_cond]
  have := v.isLt
  by_cases h : v.toNat < 128 <;> simp [h] <;> omega

/-- A logic accumulator holds the result below bit 8, which is the parameter (R124). -/
theorem logicOut_toNat (bit8 : Bool) (r : Byte) : (logicOut bit8 r).toNat = r.toNat + if bit8 then 256 else 0 := by
  cases bit8 <;> revert r <;> decide

/-- The low byte of a logic accumulator is the result. -/
@[simp] theorem lowByte_logicOut (bit8 : Bool) (r : Byte) : lowByte (logicOut bit8 r) = r := by
  apply BitVec.eq_of_toNat_eq
  rw [lowByte_toNat, logicOut_toNat]
  have := r.isLt
  cases bit8 <;> simp <;> omega

/-- The shifter's result on a sum of one byte: `t[0]` above, then the bit that enters, then `t >> 1` (R130, R131). -/
theorem shifter_bits (t : Byte) (bit7 : Bool) :
    ((BitVec.ofBool (t.getLsbD 0)).setWidth 9 <<< 8 ||| (BitVec.ofBool bit7).setWidth 9 <<< 7
      ||| (t >>> 1).setWidth 9 : Acc).toNat
      = 256 * (t.toNat % 2) + (if bit7 then 128 else 0) + t.toNat / 2 := by
  cases bit7 <;> revert t <;> decide

/-- The shifter as numbers (R130, R131, R132). -/
theorem shifterOut_toNat (wide : ShrWide) (a b : Byte) (cin : Bool) :
    (shifterOut wide a b cin).toNat =
      256 * ((a.toNat + b.toNat) % 2) +
        (if cin || (wide == .kept && decide (256 ≤ a.toNat + b.toNat)) then 128 else 0) +
        (a.toNat + b.toNat) % 256 / 2 := by
  have ht : ((adder a b false).setWidth 8 : Byte).toNat = (a.toNat + b.toNat) % 256 := by
    simp [adder_toNat]
  have h8 : (adder a b false).getLsbD 8 = decide (256 ≤ a.toNat + b.toNat) := by
    rw [acc_bit8, adder_toNat]; simp
  rw [shifterOut, shifter_bits, ht, h8]
  congr 2
  omega

end Sys2Proof.Machine
end

