-- ==== Sys2Proof/Laws/Assembler.lean ====
section
/-! SUPPORT. Pass 1 of the assembler: what binding labels, placing a record and one source line can do. -/

namespace Sys2Proof.Machine

/-- All that binding labels can do: the running address, the names of `def` and the records stay, and every label is an old
one or stands at the running address (R74). -/
theorem bindLabels_spec (st : AsmState) (ts : List Token) :
    (bindLabels st ts).1.addr = st.addr ∧ (bindLabels st ts).1.defs = st.defs ∧
    (bindLabels st ts).1.records = st.records ∧
    ∀ p ∈ (bindLabels st ts).1.labels, p ∈ st.labels ∨ p.2 = st.addr := by
  induction ts generalizing st with
  | nil => exact ⟨rfl, rfl, rfl, fun _ h => .inl h⟩
  | cons t ts ih =>
    cases t with
    | labelDef name =>
      obtain ⟨h1, h2, h3, h4⟩ := ih { st with labels := (name, st.addr) :: st.labels }
      refine ⟨h1, h2, h3, fun p hp => ?_⟩
      rcases h4 p hp with h | h
      · rcases List.mem_cons.mp h with rfl | h
        · exact .inr rfl
        · exact .inl h
      · exact .inr h
    | int _ | reg _ | word _ => exact ⟨rfl, rfl, rfl, fun _ h => .inl h⟩

/-- All that placing a record can do, if it does not fail: the record fits the image (R85), and it is appended. -/
theorem placeRecord_ok {n : Nat} {r : Record} {st st' : AsmState} (h : placeRecord n r st = .ok st') :
    st.addr + recordSize r ≤ maxImage ∧
    st' = { st with addr := st.addr + recordSize r, records := (n, r) :: st.records } := by
  unfold placeRecord at h
  split at h
  · cases h
  · exact ⟨by omega, (Except.ok.inj h).symm⟩

/-- What a line of pass 1 can do to the running address, the records and the labels, if it does not fail: it places nothing
or one record that fits the image, and every label is an old one or stands at the old running address. -/
theorem passOneLine_ok {c : Config} {n : Nat} {line : List Char} {st st' : AsmState}
    (h : passOneLine c n line st = .ok st') :
    ((st'.addr = st.addr ∧ st'.records = st.records) ∨
      ∃ r, st.addr + recordSize r ≤ maxImage ∧ st'.addr = st.addr + recordSize r ∧
        st'.records = (n, r) :: st.records) ∧
    ∀ p ∈ st'.labels, p ∈ st.labels ∨ p.2 = st.addr := by
  unfold passOneLine at h
  split at h
  · cases h
  · rename_i toks _
    obtain ⟨ha, -, hr, hl⟩ := bindLabels_spec st toks
    generalize bindLabels st toks = b at h ha hr hl
    split at h
    · cases h; exact ⟨.inl ⟨ha, hr⟩, hl⟩
    · split at h
      · split at h <;> first | cases h; exact ⟨.inl ⟨ha, hr⟩, hl⟩ | cases h
      · split at h
        · cases h
        · split at h
          · cases h
          · rename_i r _
            obtain ⟨hf, rfl⟩ := placeRecord_ok h
            exact ⟨.inr ⟨r, by rw [← ha]; exact hf, by simp [← ha], by simp [← hr]⟩, hl⟩
    · cases h

end Sys2Proof.Machine
end

