-- ==== Sys2Proof/Laws/Memory.lean ====
section
/-! SUPPORT. Raw memory: a read after a write, and the canonical form, which every memory operation keeps. -/

namespace Sys2Proof.Machine

/-- A canonical list from `lo` on reads as unlisted below `lo`. -/
theorem Memory.read_below {m : Memory} {lo a : Nat} (h : Memory.wfFrom lo m = true) (ha : a < lo) :
    Memory.read m a = Memory.unlisted := by
  induction m generalizing lo with
  | nil => rfl
  | cons p m ih =>
    obtain ⟨b, w⟩ := p
    simp only [Memory.wfFrom, Bool.and_eq_true, decide_eq_true_eq] at h
    have hne : a ≠ b := by omega
    simp only [Memory.read, hne, if_false]
    exact ih h.2 (by omega)

/-- The canonical form from one address on is one from any lower address on. -/
theorem Memory.wfFrom_mono {m : Memory} {lo lo' : Nat} (h : Memory.wfFrom lo m = true) (hl : lo' ≤ lo) :
    Memory.wfFrom lo' m = true := by
  cases m with
  | nil => rfl
  | cons p m =>
    simp only [Memory.wfFrom, Bool.and_eq_true, decide_eq_true_eq] at h ⊢
    exact ⟨⟨⟨Nat.le_trans hl h.1.1.1, h.1.1.2⟩, h.1.2⟩, h.2⟩

/-- A write at or above `lo` keeps the canonical form from `lo` on. -/
theorem Memory.wfFrom_write {m : Memory} {lo a : Nat} (v : Byte) (h : Memory.wfFrom lo m = true) (hlo : lo ≤ a)
    (ha : a < 256) : Memory.wfFrom lo (Memory.write m a v) = true := by
  induction m generalizing lo with
  | nil =>
    by_cases hv : v = Memory.unlisted <;> simp [Memory.write, Memory.wfFrom, hv, hlo, ha]
  | cons p m ih =>
    obtain ⟨b, w⟩ := p
    have h' := h
    simp only [Memory.wfFrom, Bool.and_eq_true, decide_eq_true_eq] at h'
    obtain ⟨⟨⟨h1, h2⟩, h3⟩, h4⟩ := h'
    unfold Memory.write
    by_cases hab : a < b
    · by_cases hv : v = Memory.unlisted
      · simp [hab, hv, h]
      · simp only [hab, hv, if_true, if_false, Memory.wfFrom, Bool.and_eq_true, decide_eq_true_eq, bne_iff_ne]
        refine ⟨⟨⟨hlo, ha⟩, hv⟩, ⟨⟨by omega, h2⟩, ?_⟩, h4⟩
        simpa using h3
    · by_cases hne : a = b
      · subst hne
        by_cases hv : v = Memory.unlisted
        · simp only [hv, if_true, Nat.lt_irrefl, if_false]
          exact Memory.wfFrom_mono h4 (by omega)
        · simp [hv, Memory.wfFrom, hlo, ha, h4]
      · simp only [hab, hne, if_false, Memory.wfFrom, Bool.and_eq_true, decide_eq_true_eq]
        exact ⟨⟨⟨h1, h2⟩, h3⟩, ih h4 (by omega)⟩

/-- A write keeps the canonical form. -/
theorem Memory.wf_write {m : Memory} {a : Nat} (v : Byte) (h : m.wf = true) (ha : a < 256) :
    (m.write a v).wf = true :=
  Memory.wfFrom_write v h (Nat.zero_le a) ha

/-- A copy inside the address space keeps the canonical form. -/
theorem Memory.wf_copy {m : Memory} {a : Nat} {vs : List Byte} (h : m.wf = true) (ha : a + vs.length ≤ 256) :
    (m.copy a vs).wf = true := by
  induction vs generalizing m a with
  | nil => exact h
  | cons v vs ih =>
    simp only [List.length_cons] at ha
    exact ih (Memory.wf_write v h (by omega)) (by omega)

/-- A read of another address reads as before. -/
theorem Memory.read_write_of_ne (m : Memory) {a x : Nat} (v : Byte) (hx : x ≠ a) :
    (m.write a v).read x = m.read x := by
  induction m with
  | nil => by_cases hv : v = Memory.unlisted <;> simp [Memory.write, Memory.read, hv, hx]
  | cons p m ih =>
    obtain ⟨b, w⟩ := p
    unfold Memory.write
    by_cases hab : a < b
    · by_cases hv : v = Memory.unlisted <;> simp [hab, hv, Memory.read, hx]
    · by_cases hne : a = b
      · subst hne
        by_cases hv : v = Memory.unlisted <;> simp [hv, Memory.read, hx]
      · simp [hab, hne, Memory.read, ih]

/-- A read of the address written reads the value written. -/
theorem Memory.read_write_self {m : Memory} {lo a : Nat} (v : Byte) (h : Memory.wfFrom lo m = true) :
    (m.write a v).read a = v := by
  induction m generalizing lo with
  | nil => by_cases hv : v = Memory.unlisted <;> simp [Memory.write, Memory.read, hv]
  | cons p m ih =>
    obtain ⟨b, w⟩ := p
    simp only [Memory.wfFrom, Bool.and_eq_true, decide_eq_true_eq] at h
    obtain ⟨⟨_, _⟩, h4⟩ := h
    unfold Memory.write
    by_cases hab : a < b
    · by_cases hv : v = Memory.unlisted
      · have hne : a ≠ b := by omega
        simp [hab, hv, Memory.read, hne, Memory.read_below h4 (by omega : a < b + 1)]
      · simp [hab, hv, Memory.read]
    · by_cases hne : a = b
      · subst hne
        by_cases hv : v = Memory.unlisted
        · simp [hv, Memory.read_below h4 (Nat.lt_succ_self a)]
        · simp [hv, Memory.read]
      · simp [hab, hne, Memory.read, ih h4]

/-- A read after a write, in one lemma. -/
theorem Memory.read_write {m : Memory} (h : m.wf = true) (a x : Nat) (v : Byte) :
    (m.write a v).read x = if x = a then v else m.read x := by
  by_cases hx : x = a
  · subst hx; simp [Memory.read_write_self v h]
  · simp [hx, Memory.read_write_of_ne m v hx]

/-- A copy leaves the addresses below it alone. -/
theorem Memory.read_copy_below (m : Memory) {a x : Nat} (vs : List Byte) (hx : x < a) :
    (m.copy a vs).read x = m.read x := by
  induction vs generalizing m a with
  | nil => rfl
  | cons v vs ih =>
    simp only [Memory.copy]
    rw [ih (m.write a v) (by omega), Memory.read_write_of_ne m v (by omega)]

/-- What a copy inside the address space leaves at every address (R193). -/
theorem Memory.read_copy {m : Memory} {a : Nat} {vs : List Byte} (h : m.wf = true) (ha : a + vs.length ≤ 256)
    (x : Nat) : (m.copy a vs).read x = if a ≤ x then vs.getD (x - a) (m.read x) else m.read x := by
  induction vs generalizing m a with
  | nil => simp [Memory.copy]
  | cons v vs ih =>
    simp only [List.length_cons] at ha
    simp only [Memory.copy]
    rw [ih (Memory.wf_write v h (by omega)) (by omega), Memory.read_write h]
    by_cases h1 : a + 1 ≤ x
    · have e : x - a = (x - (a + 1)) + 1 := by omega
      have hne : x ≠ a := by omega
      have hle : a ≤ x := by omega
      simp [h1, hle, hne, e]
    · by_cases h2 : x = a
      · subst h2; simp
      · have hle : ¬ a ≤ x := by omega
        simp [h1, h2, hle]

/-- The reset state's memory has the canonical form. -/
theorem reset_mem_wf : State.reset.mem.wf = true := rfl

end Sys2Proof.Machine
end

