-- ==== Sys2Proof/Laws/State.lean ====
section
/-! SUPPORT. One lemma per field of State per update, true by rfl; the registers through `State.reg`; the fields of the
reset state. -/

namespace Sys2Proof.Machine

@[simp] theorem State.setReg_regs (s : State) (r : RegNum) (v : Byte) : (s.setReg r v).regs = s.regs.set r.toNat v r.isLt := rfl
@[simp] theorem State.setReg_pc (s : State) (r : RegNum) (v : Byte) : (s.setReg r v).pc = s.pc := rfl
@[simp] theorem State.setReg_flags (s : State) (r : RegNum) (v : Byte) : (s.setReg r v).flags = s.flags := rfl
@[simp] theorem State.setReg_halted (s : State) (r : RegNum) (v : Byte) : (s.setReg r v).halted = s.halted := rfl
@[simp] theorem State.setReg_mem (s : State) (r : RegNum) (v : Byte) : (s.setReg r v).mem = s.mem := rfl
@[simp] theorem State.setReg_devices (s : State) (r : RegNum) (v : Byte) : (s.setReg r v).devices = s.devices := rfl
@[simp] theorem State.setReg_cfg (s : State) (r : RegNum) (v : Byte) : (s.setReg r v).cfg = s.cfg := rfl
@[simp] theorem State.setReg_draws (s : State) (r : RegNum) (v : Byte) : (s.setReg r v).draws = s.draws := rfl

@[simp] theorem State.setFlags_regs (s : State) (f : Flags) : (s.setFlags f).regs = s.regs := rfl
@[simp] theorem State.setFlags_pc (s : State) (f : Flags) : (s.setFlags f).pc = s.pc := rfl
@[simp] theorem State.setFlags_flags (s : State) (f : Flags) : (s.setFlags f).flags = f := rfl
@[simp] theorem State.setFlags_halted (s : State) (f : Flags) : (s.setFlags f).halted = s.halted := rfl
@[simp] theorem State.setFlags_mem (s : State) (f : Flags) : (s.setFlags f).mem = s.mem := rfl
@[simp] theorem State.setFlags_devices (s : State) (f : Flags) : (s.setFlags f).devices = s.devices := rfl
@[simp] theorem State.setFlags_cfg (s : State) (f : Flags) : (s.setFlags f).cfg = s.cfg := rfl
@[simp] theorem State.setFlags_draws (s : State) (f : Flags) : (s.setFlags f).draws = s.draws := rfl

@[simp] theorem State.setPc_regs (s : State) (a : Byte) : (s.setPc a).regs = s.regs := rfl
@[simp] theorem State.setPc_pc (s : State) (a : Byte) : (s.setPc a).pc = a := rfl
@[simp] theorem State.setPc_flags (s : State) (a : Byte) : (s.setPc a).flags = s.flags := rfl
@[simp] theorem State.setPc_halted (s : State) (a : Byte) : (s.setPc a).halted = s.halted := rfl
@[simp] theorem State.setPc_mem (s : State) (a : Byte) : (s.setPc a).mem = s.mem := rfl
@[simp] theorem State.setPc_devices (s : State) (a : Byte) : (s.setPc a).devices = s.devices := rfl
@[simp] theorem State.setPc_cfg (s : State) (a : Byte) : (s.setPc a).cfg = s.cfg := rfl
@[simp] theorem State.setPc_draws (s : State) (a : Byte) : (s.setPc a).draws = s.draws := rfl

@[simp] theorem State.setHalted_regs (s : State) : (s.setHalted).regs = s.regs := rfl
@[simp] theorem State.setHalted_pc (s : State) : (s.setHalted).pc = s.pc := rfl
@[simp] theorem State.setHalted_flags (s : State) : (s.setHalted).flags = s.flags := rfl
@[simp] theorem State.setHalted_halted (s : State) : (s.setHalted).halted = true := rfl
@[simp] theorem State.setHalted_mem (s : State) : (s.setHalted).mem = s.mem := rfl
@[simp] theorem State.setHalted_devices (s : State) : (s.setHalted).devices = s.devices := rfl
@[simp] theorem State.setHalted_cfg (s : State) : (s.setHalted).cfg = s.cfg := rfl
@[simp] theorem State.setHalted_draws (s : State) : (s.setHalted).draws = s.draws := rfl

@[simp] theorem State.advancePc_regs (s : State) : (s.advancePc).regs = s.regs := rfl
@[simp] theorem State.advancePc_pc (s : State) : (s.advancePc).pc = s.pc + 2 := rfl
@[simp] theorem State.advancePc_flags (s : State) : (s.advancePc).flags = s.flags := rfl
@[simp] theorem State.advancePc_halted (s : State) : (s.advancePc).halted = s.halted := rfl
@[simp] theorem State.advancePc_mem (s : State) : (s.advancePc).mem = s.mem := rfl
@[simp] theorem State.advancePc_devices (s : State) : (s.advancePc).devices = s.devices := rfl
@[simp] theorem State.advancePc_cfg (s : State) : (s.advancePc).cfg = s.cfg := rfl
@[simp] theorem State.advancePc_draws (s : State) : (s.advancePc).draws = s.draws := rfl

@[simp] theorem State.draw_snd_regs (s : State) : s.draw.2.regs = s.regs := rfl
@[simp] theorem State.draw_snd_pc (s : State) : s.draw.2.pc = s.pc := rfl
@[simp] theorem State.draw_snd_flags (s : State) : s.draw.2.flags = s.flags := rfl
@[simp] theorem State.draw_snd_halted (s : State) : s.draw.2.halted = s.halted := rfl
@[simp] theorem State.draw_snd_mem (s : State) : s.draw.2.mem = s.mem := rfl
@[simp] theorem State.draw_snd_devices (s : State) : s.draw.2.devices = s.devices := rfl
@[simp] theorem State.draw_snd_cfg (s : State) : s.draw.2.cfg = s.cfg := rfl
@[simp] theorem State.draw_snd_draws (s : State) : s.draw.2.draws = s.draws + 1 := rfl
@[simp] theorem State.draw_fst (s : State) : s.draw.1 = Config.draw s.draws := rfl

@[simp] theorem State.reg_setFlags (s : State) (f : Flags) (q : RegNum) : (s.setFlags f).reg q = s.reg q := rfl
@[simp] theorem State.reg_setPc (s : State) (a : Byte) (q : RegNum) : (s.setPc a).reg q = s.reg q := rfl
@[simp] theorem State.reg_setHalted (s : State) (q : RegNum) : (s.setHalted).reg q = s.reg q := rfl
@[simp] theorem State.reg_advancePc (s : State) (q : RegNum) : (s.advancePc).reg q = s.reg q := rfl
@[simp] theorem State.reg_draw (s : State) (q : RegNum) : s.draw.2.reg q = s.reg q := rfl

/-- The register written reads as the value written (R12). -/
@[simp] theorem State.reg_setReg_self (s : State) (r : RegNum) (v : Byte) : (s.setReg r v).reg r = v := by
  simp [State.reg, State.setReg]

/-- Another register reads as before. -/
theorem State.reg_setReg_of_ne (s : State) {r q : RegNum} (v : Byte) (h : q ≠ r) :
    (s.setReg r v).reg q = s.reg q := by
  have hne : r.toNat ≠ q.toNat := fun e => h (BitVec.eq_of_toNat_eq e.symm)
  simp [State.reg, State.setReg, Vector.getElem_set_ne, hne]

/-- A register read after a register write, in one lemma. -/
theorem State.reg_setReg (s : State) (r q : RegNum) (v : Byte) :
    (s.setReg r v).reg q = if q = r then v else s.reg q := by
  by_cases h : q = r
  · subst h; simp
  · simp [h, State.reg_setReg_of_ne s v h]

/-- Two states with the same fields are the same state. -/
theorem State.eq_of_fields {s t : State} (h1 : s.regs = t.regs) (h2 : s.pc = t.pc) (h3 : s.flags = t.flags)
    (h4 : s.halted = t.halted) (h5 : s.mem = t.mem) (h6 : s.devices = t.devices) (h7 : s.cfg = t.cfg)
    (h8 : s.draws = t.draws) : s = t := by
  cases s; cases t; simp_all

@[simp] theorem State.reset_pc : State.reset.pc = 0 := rfl
@[simp] theorem State.reset_flags : State.reset.flags = ⟨false, false, false, false⟩ := rfl
@[simp] theorem State.reset_halted : State.reset.halted = false := rfl
@[simp] theorem State.reset_mem : State.reset.mem = [] := rfl
@[simp] theorem State.reset_devices : State.reset.devices = referenceDevices := rfl
@[simp] theorem State.reset_cfg : State.reset.cfg = Config.default := rfl
@[simp] theorem State.reset_draws : State.reset.draws = 0 := rfl

/-- Every register is 0 after reset (R11). -/
@[simp] theorem State.reset_reg (r : RegNum) : State.reset.reg r = 0 := by
  simp [State.reg, State.reset]

end Sys2Proof.Machine
end

