-- ==== Sys2Proof/Laws/Devices.lean ====
section
/-! SUPPORT. Device dispatch: what the two list walks do, and what a data read, a data write and a fetch can do. -/

namespace Sys2Proof.Machine

/-- A device stays the same registration through a read. -/
theorem sameDevice_read (n : Nat) (d : Device) : sameDevice d (readDevice n d).2 = true := by
  cases d <;> simp [readDevice, sameDevice]

/-- A device stays the same registration through a write. -/
theorem sameDevice_write (n : Nat) (v : Byte) (d : Device) : sameDevice d (writeDevice n v d) = true := by
  cases d <;> simp [writeDevice, sameDevice]

/-- A device is the same registration as itself. -/
theorem sameDevice_refl (d : Device) : sameDevice d d = true := by cases d <;> simp [sameDevice]

/-- A registration list is the same configuration as itself. -/
theorem sameRegistration_refl (ps : List Port) : sameRegistration ps ps = true := by
  induction ps with
  | nil => rfl
  | cons p ps ih => simp [sameRegistration, sameDevice_refl, ih]

/-- A walk of reads keeps the registration (R23). -/
theorem sameRegistration_readPorts (a : Byte) (ps : List Port) (n : Nat) :
    sameRegistration ps (readPorts a ps n).2.1 = true := by
  induction ps generalizing n with
  | nil => rfl
  | cons p ps ih =>
    by_cases h : p.addr = a <;> simp [readPorts, h, sameRegistration, sameDevice_read, sameDevice_refl, ih]

/-- A walk of writes keeps the registration (R23). -/
theorem sameRegistration_writePorts (a v : Byte) (ps : List Port) (n : Nat) :
    sameRegistration ps (writePorts a v ps n).1 = true := by
  induction ps generalizing n with
  | nil => rfl
  | cons p ps ih =>
    by_cases h : p.addr = a <;> simp [writePorts, h, sameRegistration, sameDevice_write, sameDevice_refl, ih]

/-- A walk of reads uses up one free value for each device at the address. -/
theorem readPorts_draws (a : Byte) (ps : List Port) (n : Nat) :
    (readPorts a ps n).2.2 = n + ps.countP (fun p => p.addr == a) := by
  induction ps generalizing n with
  | nil => rfl
  | cons p ps ih => by_cases h : p.addr = a <;> simp [readPorts, h, ih]; omega

/-- A walk of writes uses up one free value for each device at the address. -/
theorem writePorts_draws (a v : Byte) (ps : List Port) (n : Nat) :
    (writePorts a v ps n).2 = n + ps.countP (fun p => p.addr == a) := by
  induction ps generalizing n with
  | nil => rfl
  | cons p ps ih => by_cases h : p.addr = a <;> simp [writePorts, h, ih]; omega

/-- With no device at the address, a walk of reads finds nothing and changes nothing. -/
theorem readPorts_none {a : Byte} {ps : List Port} (n : Nat) (h : (ps.any fun p => p.addr == a) = false) :
    readPorts a ps n = (0, ps, n) := by
  induction ps with
  | nil => rfl
  | cons p ps ih =>
    simp only [List.any_cons, Bool.or_eq_false_iff, beq_eq_false_iff_ne, ne_eq] at h
    simp [readPorts, h.1, ih h.2]

/-- With no device at the address, a walk of writes changes nothing. -/
theorem writePorts_none {a : Byte} (v : Byte) {ps : List Port} (n : Nat)
    (h : (ps.any fun p => p.addr == a) = false) : writePorts a v ps n = (ps, n) := by
  induction ps with
  | nil => rfl
  | cons p ps ih =>
    simp only [List.any_cons, Bool.or_eq_false_iff, beq_eq_false_iff_ne, ne_eq] at h
    simp [writePorts, h.1, ih h.2]

/-- A data read at an address without a device (R36). -/
theorem memRead_of_noDevice {s : State} {a : Byte} (h : s.hasDevice a = false) :
    s.memRead a = (s.mem.read a.toNat, s) := by simp [State.memRead, h]

/-- A data read at a device's address (R36). -/
theorem memRead_of_device {s : State} {a : Byte} (h : s.hasDevice a = true) :
    s.memRead a = ((readPorts a s.devices s.draws).1,
      { s with devices := (readPorts a s.devices s.draws).2.1, draws := (readPorts a s.devices s.draws).2.2 }) := by
  simp [State.memRead, h]

/-- A data write at an address without a device (R37). -/
theorem memWrite_of_noDevice {s : State} {a : Byte} (v : Byte) (h : s.hasDevice a = false) :
    s.memWrite a v = { s with mem := s.mem.write a.toNat v } := by simp [State.memWrite, h]

/-- A data write at a device's address (R37). -/
theorem memWrite_of_device {s : State} {a : Byte} (v : Byte) (h : s.hasDevice a = true) :
    s.memWrite a v = { s with devices := (writePorts a v s.devices s.draws).1,
                              draws := (writePorts a v s.devices s.draws).2 } := by
  simp [State.memWrite, h]

/-- All that a data read can do: CPU state and parameters stay; at most the devices' private state and the count of free
values change, and the registration stays. -/
theorem memRead_spec (s : State) (a : Byte) :
    (s.memRead a).2.regs = s.regs ∧ (s.memRead a).2.pc = s.pc ∧ (s.memRead a).2.flags = s.flags ∧
    (s.memRead a).2.halted = s.halted ∧ (s.memRead a).2.mem = s.mem ∧ (s.memRead a).2.cfg = s.cfg ∧
    sameRegistration s.devices (s.memRead a).2.devices = true := by
  cases h : s.hasDevice a
  · simp [memRead_of_noDevice h, sameRegistration_refl]
  · simp [memRead_of_device h, sameRegistration_readPorts]

/-- All that a data write can do: registers, pc, flags, halted and parameters stay, the registration stays, and memory
is as before or, at an address without a device, has the one byte written. -/
theorem memWrite_spec (s : State) (a v : Byte) :
    (s.memWrite a v).regs = s.regs ∧ (s.memWrite a v).pc = s.pc ∧ (s.memWrite a v).flags = s.flags ∧
    (s.memWrite a v).halted = s.halted ∧ (s.memWrite a v).cfg = s.cfg ∧
    sameRegistration s.devices (s.memWrite a v).devices = true ∧
    (s.memWrite a v).mem = (if s.hasDevice a then s.mem else s.mem.write a.toNat v) := by
  cases h : s.hasDevice a
  · simp [memWrite_of_noDevice v h, sameRegistration_refl]
  · simp [memWrite_of_device v h, sameRegistration_writePorts]

@[simp] theorem memRead_regs (s : State) (a : Byte) : (s.memRead a).2.regs = s.regs := (memRead_spec s a).1
@[simp] theorem memRead_pc (s : State) (a : Byte) : (s.memRead a).2.pc = s.pc := (memRead_spec s a).2.1
@[simp] theorem memRead_flags (s : State) (a : Byte) : (s.memRead a).2.flags = s.flags := (memRead_spec s a).2.2.1
@[simp] theorem memRead_halted (s : State) (a : Byte) : (s.memRead a).2.halted = s.halted :=
  (memRead_spec s a).2.2.2.1
@[simp] theorem memRead_mem (s : State) (a : Byte) : (s.memRead a).2.mem = s.mem := (memRead_spec s a).2.2.2.2.1
@[simp] theorem memRead_cfg (s : State) (a : Byte) : (s.memRead a).2.cfg = s.cfg := (memRead_spec s a).2.2.2.2.2.1
@[simp] theorem reg_memRead (s : State) (a : Byte) (q : RegNum) : (s.memRead a).2.reg q = s.reg q := by
  simp [State.reg]
@[simp] theorem memWrite_regs (s : State) (a v : Byte) : (s.memWrite a v).regs = s.regs := (memWrite_spec s a v).1
@[simp] theorem memWrite_pc (s : State) (a v : Byte) : (s.memWrite a v).pc = s.pc := (memWrite_spec s a v).2.1
@[simp] theorem memWrite_flags (s : State) (a v : Byte) : (s.memWrite a v).flags = s.flags :=
  (memWrite_spec s a v).2.2.1
@[simp] theorem memWrite_halted (s : State) (a v : Byte) : (s.memWrite a v).halted = s.halted :=
  (memWrite_spec s a v).2.2.2.1
@[simp] theorem memWrite_cfg (s : State) (a v : Byte) : (s.memWrite a v).cfg = s.cfg :=
  (memWrite_spec s a v).2.2.2.2.1
@[simp] theorem reg_memWrite (s : State) (a v : Byte) (q : RegNum) : (s.memWrite a v).reg q = s.reg q := by
  simp [State.reg]

/-- A fetch with the default parameter reads raw memory and calls no device (R38). -/
theorem fetch_raw {s : State} (a : Byte) (h : s.cfg.fetchViaDevices = false) :
    s.fetch a = (s.mem.read a.toNat, s) := by simp [State.fetch, h]

/-- All that a fetch of one byte can change: devices' private state and the count of free values. -/
theorem fetch_spec (s : State) (a : Byte) :
    (s.fetch a).2.regs = s.regs ∧ (s.fetch a).2.pc = s.pc ∧ (s.fetch a).2.flags = s.flags ∧
    (s.fetch a).2.halted = s.halted ∧ (s.fetch a).2.mem = s.mem ∧ (s.fetch a).2.cfg = s.cfg ∧
    sameRegistration s.devices (s.fetch a).2.devices = true := by
  cases h : s.cfg.fetchViaDevices
  · simp [fetch_raw a h, sameRegistration_refl]
  · simpa [State.fetch, h] using memRead_spec s a

/-- The same configuration is transitive. -/
theorem sameDevice_trans {d e f : Device} (h1 : sameDevice d e = true) (h2 : sameDevice e f = true) :
    sameDevice d f = true := by
  cases d <;> cases e <;> cases f <;> simp_all [sameDevice]

/-- The same configuration is transitive. -/
theorem sameRegistration_trans {ps qs rs : List Port} (h1 : sameRegistration ps qs = true)
    (h2 : sameRegistration qs rs = true) : sameRegistration ps rs = true := by
  induction ps generalizing qs rs with
  | nil => cases qs <;> simp_all [sameRegistration]
  | cons p ps ih =>
    cases qs with
    | nil => simp [sameRegistration] at h1
    | cons q qs =>
      cases rs with
      | nil => simp [sameRegistration] at h2
      | cons r rs =>
        simp only [sameRegistration, Bool.and_eq_true, beq_iff_eq] at h1 h2 ⊢
        exact ⟨⟨h1.1.1.trans h2.1.1, sameDevice_trans h1.1.2 h2.1.2⟩, ih h1.2 h2.2⟩

/-- All that the fetch of a word can change: devices' private state and the count of free values. -/
theorem fetchWord_spec (s : State) :
    s.fetchWord.after.regs = s.regs ∧ s.fetchWord.after.pc = s.pc ∧ s.fetchWord.after.flags = s.flags ∧
    s.fetchWord.after.halted = s.halted ∧ s.fetchWord.after.mem = s.mem ∧ s.fetchWord.after.cfg = s.cfg ∧
    sameRegistration s.devices s.fetchWord.after.devices = true := by
  obtain ⟨a1, a2, a3, a4, a5, a6, a7⟩ := fetch_spec s s.pc
  obtain ⟨b1, b2, b3, b4, b5, b6, b7⟩ := fetch_spec (s.fetch s.pc).2 (s.pc + 1)
  exact ⟨b1.trans a1, b2.trans a2, b3.trans a3, b4.trans a4, b5.trans a5, b6.trans a6,
    sameRegistration_trans a7 b7⟩

/-- The fetch of a word with the default parameter: the two bytes of raw memory in the order of `WORD_ORDER`, and nothing
changes (R31, R38, R91). -/
theorem fetchWord_raw {s : State} (h : s.cfg.fetchViaDevices = false) :
    s.fetchWord = ⟨(orderBytes s.cfg.wordOrder (s.mem.read s.pc.toNat) (s.mem.read (s.pc + 1).toNat)).1,
      (orderBytes s.cfg.wordOrder (s.mem.read s.pc.toNat) (s.mem.read (s.pc + 1).toNat)).2, s⟩ := by
  simp [State.fetchWord, fetch_raw _ h]

end Sys2Proof.Machine
end

