-- ==== Sys2Proof/Laws/Encoding.lean ====
section
/-! SUPPORT. The fields of a packed word, and the two name tables: what the encoder packs is what the decoder reads. -/

namespace Sys2Proof

@[simp] theorem opcodeField_packHi (n : BitVec 5) (d : BitVec 3) : opcodeField (packHi n d) = n := by
  revert n d; decide

@[simp] theorem destField_packHi (n : BitVec 5) (d : BitVec 3) : destField (packHi n d) = d := by
  revert n d; decide

/-- A high byte is its two fields (R51). -/
theorem packHi_fields (hi : Byte) : packHi (opcodeField hi) (destField hi) = hi := by revert hi; decide

@[simp] theorem selField_packLo (x : Bool) (a : RegNum) (f : BitVec 4) : selField (packLo x a f) = x := by
  revert x a f; decide

@[simp] theorem regAField_packLo (x : Bool) (a : RegNum) (f : BitVec 4) : regAField (packLo x a f) = a := by
  revert x a f; decide

@[simp] theorem bField_packLo (x : Bool) (a : RegNum) (f : BitVec 4) : bField (packLo x a f) = f := by
  revert x a f; decide

/-- A low byte is its three fields (R51). -/
theorem packLo_fields (lo : Byte) : packLo (selField lo) (regAField lo) (bField lo) = lo := by revert lo; decide

/-- Operand A of a packed low byte. -/
@[simp] theorem regAField_packOperands (a : RegNum) (b : OperandB) : regAField (packOperands a b) = a := by
  cases b <;> simp [packOperands]

/-- The 4-bit two's complement of a literal in range reads back as the literal (R54). -/
theorem literal_round_trip {v : Int} (h1 : -8 ≤ v) (h2 : v ≤ 7) : (BitVec.ofInt 4 v).toInt = v := by
  have h : v = -8 ∨ v = -7 ∨ v = -6 ∨ v = -5 ∨ v = -4 ∨ v = -3 ∨ v = -2 ∨ v = -1 ∨ v = 0 ∨ v = 1 ∨ v = 2 ∨ v = 3 ∨
      v = 4 ∨ v = 5 ∨ v = 6 ∨ v = 7 := by omega
  rcases h with h | h | h | h | h | h | h | h | h | h | h | h | h | h | h | h <;> subst h <;> decide

/-- A well-formed operand B reads back from its low byte (R54, R94). -/
theorem decodeB_packOperands (a : RegNum) {b : OperandB} (h : b.wf = true) : decodeB (packOperands a b) = b := by
  cases b with
  | reg r =>
    have hr : (r.setWidth 4).setWidth 3 = r := by revert r; decide
    simp [packOperands, decodeB, hr]
  | lit v =>
    simp only [OperandB.wf, Bool.and_eq_true, decide_eq_true_eq] at h
    simp [packOperands, decodeB, literal_round_trip h.1 h.2]

/-- What the decoder reads as operand B is well formed. -/
theorem decodeB_wf (lo : Byte) : (decodeB lo).wf = true := by revert lo; decide

/-- Packing what the decoder reads of a low byte gives its canonical alias (R66, R67). -/
theorem packOperands_decodeB (lo : Byte) : packOperands (regAField lo) (decodeB lo) = canonicalLo lo := by
  revert lo; decide

/-- In an injective table the first name with a key's value is the name itself. -/
theorem find_injective {α β : Type} [DecidableEq β] (f : α → β) (l : List α) (x : α) (hx : x ∈ l)
    (hinj : ∀ a ∈ l, f a = f x → a = x) : l.find? (fun o => f o == f x) = some x := by
  induction l with
  | nil => simp at hx
  | cons y ys ih =>
    by_cases hy : f y = f x
    · have := hinj y (by simp) hy
      subst this; simp
    · have hne : x ≠ y := fun e => hy (by rw [e])
      have hmem : x ∈ ys := by
        rcases List.mem_cons.mp hx with e | e
        · exact absurd e hne
        · exact e
      simp [hy, ih hmem fun a ha h => hinj a (List.mem_cons_of_mem _ ha) h]

/-- Every opcode name is in the list. -/
theorem OpName.mem_all (o : OpName) : o ∈ OpName.all := by cases o <;> decide

/-- Every condition name is in the list. -/
theorem Cond.mem_all (k : Cond) : k ∈ Cond.all := by cases k <;> decide

/-- A well-formed configuration's numbers are injective (R57). -/
theorem Config.opNumber_injective {c : Config} (h : c.wf = true) {o p : OpName}
    (e : c.opNumber o = c.opNumber p) : o = p := by
  simp only [Config.wf, Config.opmapInjective, Bool.and_eq_true, List.all_eq_true, Bool.or_eq_true, beq_iff_eq,
    bne_iff_ne] at h
  rcases h.1.1 o o.mem_all p p.mem_all with x | x
  · exact x
  · exact absurd e x

/-- A well-formed configuration's condition codes are injective (R59). -/
theorem Config.condCode_injective {c : Config} (h : c.wf = true) {j k : Cond}
    (e : c.condCode j = c.condCode k) : j = k := by
  simp only [Config.wf, Config.condmapInjective, Bool.and_eq_true, List.all_eq_true, Bool.or_eq_true, beq_iff_eq,
    bne_iff_ne] at h
  rcases h.1.2 j j.mem_all k k.mem_all with x | x
  · exact x
  · exact absurd e x

/-- The number of a name decodes to the name (R57, R92). -/
theorem Config.opOf_opNumber {c : Config} (h : c.wf = true) (o : OpName) : c.opOf (c.opNumber o) = some o :=
  find_injective c.opNumber OpName.all o o.mem_all fun _ _ e => Config.opNumber_injective h e

/-- The code of a condition decodes to the condition (R59, R95). -/
theorem Config.condOf_condCode {c : Config} (h : c.wf = true) (k : Cond) : c.condOf (c.condCode k) = some k :=
  find_injective c.condCode Cond.all k k.mem_all fun _ _ e => Config.condCode_injective h e

/-- A number that decodes to a name is the name's number. -/
theorem Config.opNumber_of_opOf {c : Config} {n : BitVec 5} {o : OpName} (h : c.opOf n = some o) :
    c.opNumber o = n := by
  have := List.find?_some h
  simpa using this

/-- A code that decodes to a condition is the condition's code. -/
theorem Config.condCode_of_condOf {c : Config} {d : BitVec 3} {k : Cond} (h : c.condOf d = some k) :
    c.condCode k = d := by
  have := List.find?_some h
  simpa using this

/-- An opcode's number lies in the immediate range exactly if its record is I-format (R58). -/
theorem Config.inImmRange_opNumber {c : Config} (h : c.wf = true) (o : OpName) :
    c.inImmRange (c.opNumber o) = o.isImmediate := by
  simp only [Config.wf, Config.immRangeExact, Bool.and_eq_true, List.all_eq_true, beq_iff_eq] at h
  exact h.2 o o.mem_all

/-- The default configuration is well formed (R57, R58, R59). -/
theorem Config.default_wf : Config.default.wf = true := by decide

end Sys2Proof
end

