-- ==== Sys2Proof/Laws/Exec.lean ====
section
/-! SUPPORT. One lemma for each shared way in which a meaning ends: which next state it answers. -/

namespace Sys2Proof.Machine

/-- An opcode with a destination answers a next state: its register and its flags written (R14, R99). -/
theorem finishInto_eq (d : RegNum) (out : Acc) (a b : Byte) (s : State) :
    finishInto d out a b s = .next ((s.setReg d (lowByte out)).setFlags (flagsOf out a b)) := rfl

/-- An opcode without a destination answers a next state: its flags written (R99). -/
theorem finish_eq (out : Acc) (a b : Byte) (s : State) :
    finish out a b s = .next (s.setFlags (flagsOf out a b)) := rfl

/-- A non-ALU opcode leaves `C S Z V = 0 0 1 0` (R100). -/
theorem finishNonAlu_eq (s : State) : finishNonAlu s = .next (s.setFlags ⟨false, false, true, false⟩) := by
  rw [finishNonAlu, finish_eq, flagsOf_zero]

/-- All that `finishInto` can do, field by field. -/
theorem finishInto_spec {d : RegNum} {out : Acc} {a b : Byte} {s t : State} (h : finishInto d out a b s = .next t) :
    t.reg d = lowByte out ∧ KeepsRegistersBut d s t ∧ t.flags = flagsOf out a b ∧ t.pc = s.pc ∧
      t.halted = s.halted ∧ t.mem = s.mem ∧ t.devices = s.devices ∧ t.cfg = s.cfg ∧ t.draws = s.draws := by
  rw [finishInto_eq] at h
  obtain rfl := Host.Outcome.next.inj h
  exact ⟨by simp, fun r hr => by simpa using State.reg_setReg_of_ne s _ hr, rfl, rfl, rfl, rfl, rfl, rfl, rfl⟩

/-- All that `finish` can do: the flags, and nothing else. -/
theorem finish_spec {out : Acc} {a b : Byte} {s t : State} (h : finish out a b s = .next t) :
    t = s.setFlags (flagsOf out a b) := (Host.Outcome.next.inj h).symm

/-- A branch changes at most the pc (R140, R141). -/
theorem branch_spec (k : Cond) (target : Byte) (s : State) :
    branch k target s = s.setPc (if condHolds k s.flags then target else s.pc) := by
  unfold branch
  cases condHolds k s.flags <;> rfl

@[simp] theorem branch_regs (k : Cond) (x : Byte) (s : State) : (branch k x s).regs = s.regs := by simp [branch_spec]
@[simp] theorem branch_flags (k : Cond) (x : Byte) (s : State) : (branch k x s).flags = s.flags := by
  simp [branch_spec]
@[simp] theorem branch_halted (k : Cond) (x : Byte) (s : State) : (branch k x s).halted = s.halted := by
  simp [branch_spec]
@[simp] theorem branch_mem (k : Cond) (x : Byte) (s : State) : (branch k x s).mem = s.mem := by simp [branch_spec]
@[simp] theorem branch_devices (k : Cond) (x : Byte) (s : State) : (branch k x s).devices = s.devices := by
  simp [branch_spec]
@[simp] theorem branch_cfg (k : Cond) (x : Byte) (s : State) : (branch k x s).cfg = s.cfg := by simp [branch_spec]
@[simp] theorem branch_draws (k : Cond) (x : Byte) (s : State) : (branch k x s).draws = s.draws := by
  simp [branch_spec]
@[simp] theorem reg_branch (k : Cond) (x : Byte) (s : State) (q : RegNum) : (branch k x s).reg q = s.reg q := by
  simp [branch_spec]

/-- A literal operand B in range is `sext_8` of its 4-bit field (R8, R94). -/
theorem operandB_lit (s : State) {v : Int} (h1 : -8 ≤ v) (h2 : v ≤ 7) :
    s.operandB (.lit v) = sext8 (BitVec.ofInt 4 v) := by
  have h : v = -8 ∨ v = -7 ∨ v = -6 ∨ v = -5 ∨ v = -4 ∨ v = -3 ∨ v = -2 ∨ v = -1 ∨ v = 0 ∨ v = 1 ∨ v = 2 ∨ v = 3 ∨
      v = 4 ∨ v = 5 ∨ v = 6 ∨ v = 7 := by omega
  rcases h with h | h | h | h | h | h | h | h | h | h | h | h | h | h | h | h <;> subst h <;> rfl

end Sys2Proof.Machine
end

