-- ==== Sys2Proof/Laws/PerInstr.lean ====
section
/-! SUPPORT. Statements for all instructions, proved constructor by constructor. -/

namespace Sys2Proof.Laws

/-- The high byte of an instruction's word carries its opcode's number in its top five bits, under any numbering
(R51, R52, R57). -/
def OpcodeField.Statement (i : Instr) : Prop :=
  ∀ c : Config, opcodeField (encode c i).1 = c.opNumber i.opName

theorem OpcodeField.add (d a : RegNum) (b : OperandB) : OpcodeField.Statement (.add d a b) := fun _ => opcodeField_packHi _ _
theorem OpcodeField.addc (d a : RegNum) (b : OperandB) : OpcodeField.Statement (.addc d a b) := fun _ => opcodeField_packHi _ _
theorem OpcodeField.sub (d a : RegNum) (b : OperandB) : OpcodeField.Statement (.sub d a b) := fun _ => opcodeField_packHi _ _
theorem OpcodeField.subc (d a : RegNum) (b : OperandB) : OpcodeField.Statement (.subc d a b) := fun _ => opcodeField_packHi _ _
theorem OpcodeField.cmp (a : RegNum) (b : OperandB) : OpcodeField.Statement (.cmp a b) := fun _ => opcodeField_packHi _ _
theorem OpcodeField.cmpc (d a : RegNum) (b : OperandB) : OpcodeField.Statement (.cmpc d a b) := fun _ => opcodeField_packHi _ _
theorem OpcodeField.xor (d a : RegNum) (b : OperandB) : OpcodeField.Statement (.xor d a b) := fun _ => opcodeField_packHi _ _
theorem OpcodeField.nand (d a : RegNum) (b : OperandB) : OpcodeField.Statement (.nand d a b) := fun _ => opcodeField_packHi _ _
theorem OpcodeField.or (d a : RegNum) (b : OperandB) : OpcodeField.Statement (.or d a b) := fun _ => opcodeField_packHi _ _
theorem OpcodeField.and (d a : RegNum) (b : OperandB) : OpcodeField.Statement (.and d a b) := fun _ => opcodeField_packHi _ _
theorem OpcodeField.shr (d a : RegNum) (b : OperandB) : OpcodeField.Statement (.shr d a b) := fun _ => opcodeField_packHi _ _
theorem OpcodeField.shrc (d a : RegNum) (b : OperandB) : OpcodeField.Statement (.shrc d a b) := fun _ => opcodeField_packHi _ _
theorem OpcodeField.jmp (a : RegNum) (b : OperandB) : OpcodeField.Statement (.jmp a b) := fun _ => opcodeField_packHi _ _
theorem OpcodeField.jeq (a : RegNum) (b : OperandB) : OpcodeField.Statement (.jeq a b) := fun _ => opcodeField_packHi _ _
theorem OpcodeField.jgt (a : RegNum) (b : OperandB) : OpcodeField.Statement (.jgt a b) := fun _ => opcodeField_packHi _ _
theorem OpcodeField.jge (a : RegNum) (b : OperandB) : OpcodeField.Statement (.jge a b) := fun _ => opcodeField_packHi _ _
theorem OpcodeField.jgts (a : RegNum) (b : OperandB) : OpcodeField.Statement (.jgts a b) := fun _ => opcodeField_packHi _ _
theorem OpcodeField.jges (a : RegNum) (b : OperandB) : OpcodeField.Statement (.jges a b) := fun _ => opcodeField_packHi _ _
theorem OpcodeField.ld (d : RegNum) : OpcodeField.Statement (.ld d) := fun _ => opcodeField_packHi _ _
theorem OpcodeField.st (a : RegNum) (b : OperandB) : OpcodeField.Statement (.st a b) := fun _ => opcodeField_packHi _ _
theorem OpcodeField.rand (d : RegNum) : OpcodeField.Statement (.rand d) := fun _ => opcodeField_packHi _ _
theorem OpcodeField.halt : OpcodeField.Statement .halt := fun _ => opcodeField_packHi _ _
theorem OpcodeField.nop : OpcodeField.Statement .nop := fun _ => opcodeField_packHi _ _
theorem OpcodeField.jmpi (target : Byte) : OpcodeField.Statement (.jmpi target) := fun _ => opcodeField_packHi _ _
theorem OpcodeField.jeqi (target : Byte) : OpcodeField.Statement (.jeqi target) := fun _ => opcodeField_packHi _ _
theorem OpcodeField.jgti (target : Byte) : OpcodeField.Statement (.jgti target) := fun _ => opcodeField_packHi _ _
theorem OpcodeField.jgei (target : Byte) : OpcodeField.Statement (.jgei target) := fun _ => opcodeField_packHi _ _
theorem OpcodeField.jgtsi (target : Byte) : OpcodeField.Statement (.jgtsi target) := fun _ => opcodeField_packHi _ _
theorem OpcodeField.jgesi (target : Byte) : OpcodeField.Statement (.jgesi target) := fun _ => opcodeField_packHi _ _
theorem OpcodeField.sti (n : Byte) : OpcodeField.Statement (.sti n) := fun _ => opcodeField_packHi _ _
theorem OpcodeField.imm (d : RegNum) (n : Byte) : OpcodeField.Statement (.imm d n) := fun _ => opcodeField_packHi _ _

end Sys2Proof.Laws
end

