-- ==== Sys2Proof/Tests/Slice0.lean ====
section
/-! SUPPORT. Own tests. Every expected value is the spec's: the tables of spec/95_test_vectors.md, or a computation by hand
from a rule that the docstring names. The last part shows, for every obligation with hypotheses, that they can be met. -/

namespace Sys2Proof.Tests

open Sys2Proof Sys2Proof.Machine Sys2Proof.Claims

/-! ### Well-formedness: each check refuses something -/

/-- R51, R54: a literal operand B outside -8..7 has no encoding; the two ends have. -/
theorem test_wf_refuses_wide_literal :
    (Instr.add 0 0 (.lit 8)).wf = false ∧ (Instr.st 0 (.lit (-9))).wf = false ∧ (Instr.jges 1 (.lit 8)).wf = false ∧
    (Instr.cmp 0 (.lit (-9))).wf = false ∧ (Instr.shrc 0 0 (.lit 8)).wf = false ∧
    (Instr.add 0 0 (.lit 7)).wf = true ∧ (Instr.st 0 (.lit (-8))).wf = true := by decide

/-- R8, R71: an integer operand of a record has 32 bits. -/
theorem test_wf_refuses_wide_integer :
    (Record.raw (.int 2147483648)).wf = false ∧ (Record.ifmt 20 (.reg 0) (.int (-2147483649))).wf = false ∧
    (Record.rfmt 0 (.reg 0) (.reg 0) (.int 2147483648)).wf = false ∧
    (Record.raw (.int 2147483647)).wf = true ∧ (Record.raw (.int (-2147483648))).wf = true := by decide

/-- R57: two opcode names with one number are refused. -/
theorem test_wf_refuses_double_opcode :
    ({ Config.default with opmap := Config.default.opmap.set 0 1 } : Config).wf = false := by decide

/-- R59: two conditions with one code are refused. -/
theorem test_wf_refuses_double_condition :
    ({ Config.default with condmap := Config.default.condmap.set 0 1 } : Config).wf = false := by decide

/-- R58, D2: an immediate range that leaves an I-format opcode out, or takes another one in, is refused. -/
theorem test_wf_refuses_immediate_range :
    ({ Config.default with immHi := 19 } : Config).wf = false ∧
    ({ Config.default with immLo := 17 } : Config).wf = false ∧ Config.default.wf = true := by decide

/-! ### Decoding: a word of every constructor, written bit by bit from R51, R52, R57, R59 -/

/-- Opcodes 0 to 5: `op(5) D(3) sel(1) A(3) B(4)`. -/
theorem test_decode_arithmetic :
    decodeTableWord 16 0b00000_010_0_000_0001 = some (.add 2 0 (.reg 1)) ∧
    decodeTableWord 16 0b00001_010_0_000_0001 = some (.addc 2 0 (.reg 1)) ∧
    decodeTableWord 16 0b00010_001_1_001_0001 = some (.sub 1 1 (.lit 1)) ∧
    decodeTableWord 16 0b00011_010_0_000_0001 = some (.subc 2 0 (.reg 1)) ∧
    decodeTableWord 16 0b00100_000_1_011_0101 = some (.cmp 3 (.lit 5)) ∧
    decodeTableWord 16 0b00101_101_0_010_0011 = some (.cmpc 5 2 (.reg 3)) := by decide

/-- Opcodes 6 to 11. -/
theorem test_decode_logic_and_shift :
    decodeTableWord 16 0b00110_001_1_001_1111 = some (.xor 1 1 (.lit (-1))) ∧
    decodeTableWord 16 0b00111_010_0_000_0001 = some (.nand 2 0 (.reg 1)) ∧
    decodeTableWord 16 0b01000_010_1_000_0111 = some (.or 2 0 (.lit 7)) ∧
    decodeTableWord 16 0b01001_111_0_111_0111 = some (.and 7 7 (.reg 7)) ∧
    decodeTableWord 16 0b01010_001_1_000_0000 = some (.shr 1 0 (.lit 0)) ∧
    decodeTableWord 16 0b01011_001_1_000_0000 = some (.shrc 1 0 (.lit 0)) := by decide

/-- Opcode 12: `D` is the condition code. -/
theorem test_decode_register_jumps :
    decodeTableWord 16 0b01100_000_0_011_0100 = some (.jmp 3 (.reg 4)) ∧
    decodeTableWord 16 0b01100_001_1_011_0000 = some (.jeq 3 (.lit 0)) ∧
    decodeTableWord 16 0b01100_010_1_011_0000 = some (.jgt 3 (.lit 0)) ∧
    decodeTableWord 16 0b01100_011_0_101_0110 = some (.jge 5 (.reg 6)) ∧
    decodeTableWord 16 0b01100_100_1_011_1000 = some (.jgts 3 (.lit (-8))) ∧
    decodeTableWord 16 0b01100_101_1_011_1110 = some (.jges 3 (.lit (-2))) := by decide

/-- Opcode 18: `D` is the condition code, the low byte the target. -/
theorem test_decode_immediate_jumps :
    decodeTableWord 16 0b10010_000_11111110 = some (.jmpi 0xFE) ∧
    decodeTableWord 16 0b10010_001_01000000 = some (.jeqi 0x40) ∧
    decodeTableWord 16 0b10010_010_00000100 = some (.jgti 4) ∧
    decodeTableWord 16 0b10010_011_01000000 = some (.jgei 0x40) ∧
    decodeTableWord 16 0b10010_100_01000000 = some (.jgtsi 0x40) ∧
    decodeTableWord 16 0b10010_101_01000000 = some (.jgesi 0x40) := by decide

/-- Opcodes 13 to 17, 19, 20. -/
theorem test_decode_memory_and_misc :
    decodeTableWord 16 0b01101_010_00000000 = some (.ld 2) ∧
    decodeTableWord 16 0b01110_000_0_011_0100 = some (.st 3 (.reg 4)) ∧
    decodeTableWord 16 0b01111_100_00000000 = some (.rand 4) ∧
    decodeTableWord 16 0b10000_000_00000000 = some .halt ∧
    decodeTableWord 16 0b10001_000_00000000 = some .nop ∧
    decodeTableWord 16 0b10011_000_01000001 = some (.sti 0x41) ∧
    decodeTableWord 16 0b10100_111_11111110 = some (.imm 7 0xFE) := by decide

/-- Ignored fields (R66): the aliases of spec/95_test_vectors.md 2.3, 2.7, 2.9 and 1.5. -/
theorem test_decode_aliases :
    decodeTableWord 16 0x0209 = some (.add 2 0 (.reg 1)) ∧ decodeTableWord 16 0x2501 = some (.cmp 0 (.reg 1)) ∧
    decodeTableWord 16 0x6AFF = some (.ld 2) ∧ decodeTableWord 16 0x8755 = some .halt ∧
    decodeTableWord 16 0x8FFF = some .nop := by decide

/-- The fatal decodes of spec/95_test_vectors.md 2.6. -/
theorem test_decode_refuses :
    decode Config.default 0x66 0 = .error (.illegalCondition 6) ∧
    decode Config.default 0x67 0xFF = .error (.illegalCondition 7) ∧
    decode Config.default 0x97 0 = .error (.illegalCondition 7) ∧
    decode Config.default 0xA8 0 = .error (.illegalOpcode 0xA8) ∧
    decode Config.default 0xFF 0xFF = .error (.illegalOpcode 0xFF) ∧
    decode Config.default 0xA7 0 = .ok (.imm 7 0) := by decide

/-! ### The encoder block (spec/95_test_vectors.md 1.2, 2.1) -/

theorem test_encoder_words :
    encodeRecord Config.default (.rfmt 0 (.reg 3) (.reg 4) (.int (-8))) = .ok [0x03, 0xC8] ∧
    encodeRecord Config.default (.rfmt 12 (.cond 5) (.reg 3) (.int (-2))) = .ok [0x65, 0xBE] ∧
    encodeRecord Config.default (.ifmt 18 (.cond 0) (.int (-2))) = .ok [0x90, 0xFE] ∧
    encodeRecord Config.default (.ifmt 20 (.reg 0) (.int (-129))) = .ok [0xA0, 0x7F] ∧
    encodeRecord Config.default (.raw (.int 300)) = .ok [0x2C] := by decide

theorem test_encoder_failures :
    encodeRecord Config.default (.rfmt 0 (.reg 0) (.reg 0) (.int 8)) = .error .literalOutOfRange ∧
    encodeRecord Config.default (.rfmt 0 (.reg 0) (.reg 0) (.int (-9))) = .error .literalOutOfRange ∧
    encodeRecord Config.default (.rfmt 0 (.int 1) (.reg 0) (.reg 0)) = .error .badDestination ∧
    encodeRecord Config.default (.rfmt 0 (.reg 0) (.int 1) (.reg 0)) = .error .badOperandA ∧
    encodeRecord Config.default (.rfmt 0 (.reg 0) (.reg 0) (.label [])) = .error .badOperandB ∧
    encodeRecord Config.default (.rfmt 12 (.reg 0) (.reg 0) (.reg 0)) = .error .badDestination ∧
    encodeRecord Config.default (.ifmt 18 (.reg 0) (.int 4)) = .error .badDestination ∧
    encodeRecord Config.default (.ifmt 20 (.reg 0) (.reg 0)) = .error .valueNotInteger ∧
    encodeRecord Config.default (.raw (.label [])) = .error .valueNotInteger := by decide

/-! ### The assembler's notation (spec/95_test_vectors.md 1.3, 1.4; R71, R72, R82) -/

/-- A forward reference (1.3). -/
theorem test_assemble_forward_label :
    assemble Config.default "jmp loop\nnop\nloop: halt".toList = .ok [0x90, 4, 0x88, 0, 0x80, 0] := by decide +kernel

/-- A constant before its `def` is an unknown label (1.4); after it, it is the constant. -/
theorem test_assemble_constant :
    assemble Config.default "mov r0 FOO\ndef FOO 5".toList = .error (1, .unknownLabel) ∧
    assemble Config.default "def FOO 5\nmov r0 FOO".toList = .ok [0xA0, 5] := by decide +kernel

/-- Radix prefixes, a character literal that holds a space, an escape, a comment (R70 to R72). -/
theorem test_assemble_tokens :
    assemble Config.default "byte -0x10 # sixteen\nbyte ' '\nbyte '\\n'".toList = .ok [0xF0, 32, 10] ∧
    assemble Config.default "byte 0x".toList = .error (1, .badNumber) := by decide +kernel

/-! ### One step -/

/-- A machine after reset but for some registers, the flags and the pc. -/
def machine (regs : List (RegNum × Byte)) (flags : Flags) (pc : Byte) : State :=
  (regs.foldl (fun (s : State) p => s.setReg p.1 p.2) { State.reset with flags := flags }).setPc pc

/-- The flags written in the order C, S, Z, V of the spec's tables. -/
def fl (c s z v : Nat) : Flags := ⟨c == 1, s == 1, z == 1, v == 1⟩

/-- The next state of a step of the word on the machine, if there is one. -/
def runWord (s : State) (w : Nat) : Option State :=
  match step (s.withFetchWord 16 w) with
  | .next t => some t
  | .fault _ | .refused _ => none

/-- The fault of a step of the word, if it ends in one. -/
def faultOfWord (s : State) (w : Nat) : Option Fault :=
  match step (s.withFetchWord 16 w) with
  | .fault f => some f
  | .next _ | .refused _ => none

/-- A register, the pc and the flags after a step of the word. -/
def sees (s : State) (w : Nat) (r : RegNum) : Option (Byte × Byte × Flags) :=
  (runWord s w).map fun t => (t.reg r, t.pc, t.flags)

/-- The byte at an address and the flags after a step of the word. -/
def stores (s : State) (w a : Nat) : Option (Byte × Flags) := (runWord s w).map fun t => (t.mem.read a, t.flags)

theorem test_add_overflows : sees (machine [(0, 128), (1, 128)] (fl 0 0 0 0) 0) 0x0201 2 = some (0, 2, fl 1 0 1 1) := by decide
theorem test_add_destination_is_source : sees (machine [(1, 0x81)] (fl 0 0 0 0) 0) 0x0111 1 = some (2, 2, fl 1 0 0 1) := by decide
theorem test_addc_carry_in_overflows : sees (machine [(0, 127)] (fl 1 0 0 0) 0) 0x0A01 2 = some (128, 2, fl 0 1 0 1) := by decide
theorem test_addc_maximum : sees (machine [(0, 255), (1, 255)] (fl 1 0 0 0) 0) 0x0A01 2 = some (255, 2, fl 1 1 0 0) := by decide
theorem test_sub_signed_overflow : sees (machine [(0, 0x7F), (1, 0xFF)] (fl 0 0 0 0) 0) 0x1201 2 = some (128, 2, fl 0 1 0 1) := by decide
/-- R112: with the other value of `OVF_B_SOURCE` the flags are `0 1 0 1`. -/
theorem test_sub_borrows :
    sees (machine [(0, 3), (1, 5)] (fl 0 0 0 0) 0) 0x1201 2 = some (254, 2, fl 0 1 0 0) ∧
    sees { machine [(0, 3), (1, 5)] (fl 0 0 0 0) 0 with cfg := { Config.default with ovfBSource := .raw } } 0x1201 2
      = some (254, 2, fl 0 1 0 1) := by decide
theorem test_subc_borrow_in : sees (machine [(0, 5), (1, 3)] (fl 0 0 0 0) 0) 0x1A01 2 = some (1, 2, fl 1 0 0 0) := by decide
theorem test_subc_maximum : sees (machine [(0, 255)] (fl 1 0 0 0) 0) 0x1A01 2 = some (255, 2, fl 1 1 0 0) := by decide
theorem test_cmp_signed_less : sees (machine [(0, 0x80), (1, 0x7F)] (fl 0 0 0 0) 0) 0x2001 0 = some (0x80, 2, fl 1 0 0 1) := by decide
theorem test_cmp_ignores_destination : sees (machine [(0, 10), (1, 10), (5, 9)] (fl 0 0 0 0) 0) 0x2501 5 = some (9, 2, fl 1 0 1 0) := by decide
theorem test_cmpc_borrow_in : sees (machine [(2, 1), (3, 1)] (fl 0 0 0 0) 0) 0x2823 0 = some (0, 2, fl 0 1 0 0) := by decide
theorem test_cmpc_writes_nothing : sees (machine [(2, 2), (3, 1), (5, 9)] (fl 0 0 0 0) 0) 0x2D23 5 = some (9, 2, fl 1 0 1 0) := by decide

theorem test_xor_clear_sets_overflow : sees (machine [(0, 0x80)] (fl 0 0 0 0) 0) 0x3000 0 = some (0, 2, fl 0 0 1 1) := by decide
theorem test_nand_sets_no_carry : sees (machine [] (fl 1 0 0 0) 0) 0x3A01 2 = some (0xFF, 2, fl 0 1 0 1) := by decide
theorem test_or_literal : sees (machine [(0, 0x10)] (fl 0 0 0 0) 0) 0x4287 2 = some (0x17, 2, fl 0 0 0 0) := by decide
theorem test_and_negative_literal : sees (machine [(0, 0xAB)] (fl 0 0 0 0) 0) 0x4A88 2 = some (0xA8, 2, fl 0 1 0 0) := by decide
theorem test_shr_shifts_sum : sees (machine [(0, 6)] (fl 0 0 0 0) 0) 0x5181 1 = some (3, 2, fl 1 0 0 0) := by decide
/-- R130: `SHR_WIDE` dropped and kept. -/
theorem test_shr_wide :
    sees (machine [(0, 200), (2, 100)] (fl 0 0 0 0) 0) 0x5102 1 = some (22, 2, fl 0 0 0 0) ∧
    (sees { machine [(0, 200), (2, 100)] (fl 0 0 0 0) 0 with cfg := { Config.default with shrWide := .kept } } 0x5102 1).map
      (·.1) = some 0x96 := by decide
theorem test_shrc_rotates : sees (machine [(0, 0x81)] (fl 1 0 0 0) 0) 0x5980 1 = some (0xC0, 2, fl 1 1 0 0) := by decide
theorem test_shrc_carry_into_bit7 : sees (machine [] (fl 1 0 0 0) 0) 0x5980 1 = some (0x80, 2, fl 0 1 0 1) := by decide

theorem test_jmp_wraps : sees (machine [(3, 0xF0), (4, 0x20)] (fl 0 0 0 0) 0) 0x6034 3 = some (0xF0, 0x10, fl 1 0 0 0) := by decide
theorem test_jmp_adds_to_register : sees (machine [(3, 0x10)] (fl 0 0 0 0) 0x20) 0x60BE 3 = some (0x10, 0x0E, fl 1 0 0 0) := by decide
theorem test_jeq_reads_old_zero :
    sees (machine [(3, 0x40)] (fl 0 0 1 0) 0) 0x61B0 3 = some (0x40, 0x40, fl 0 0 0 0) ∧
    sees (machine [(3, 0x40)] (fl 0 0 0 0) 0) 0x61B0 3 = some (0x40, 2, fl 0 0 0 0) := by decide
/-- R142: carry and not zero. -/
theorem test_jgt_register :
    sees (machine [(3, 0x40)] (fl 1 0 0 0) 0) 0x62B0 3 = some (0x40, 0x40, fl 0 0 0 0) ∧
    sees (machine [(3, 0x40)] (fl 1 0 1 0) 0) 0x62B0 3 = some (0x40, 2, fl 0 0 0 0) := by decide
/-- R142: carry, whatever zero. -/
theorem test_jge_register :
    sees (machine [(3, 0x40)] (fl 1 0 1 0) 0) 0x63B0 3 = some (0x40, 0x40, fl 0 0 0 0) ∧
    sees (machine [(3, 0x40)] (fl 0 1 0 0) 0) 0x63B0 3 = some (0x40, 2, fl 0 0 0 0) := by decide
/-- R142: not zero, and overflow equals sign. -/
theorem test_jgts_register :
    sees (machine [(3, 0x40)] (fl 0 1 0 1) 0) 0x64B0 3 = some (0x40, 0x40, fl 0 0 0 0) ∧
    sees (machine [(3, 0x40)] (fl 0 0 1 0) 0) 0x64B0 3 = some (0x40, 2, fl 0 0 0 0) := by decide
/-- R142: overflow equals sign, whatever zero. -/
theorem test_jges_register :
    sees (machine [(3, 0x40)] (fl 0 0 1 0) 0) 0x65B0 3 = some (0x40, 0x40, fl 0 0 0 0) ∧
    sees (machine [(3, 0x40)] (fl 0 1 0 0) 0) 0x65B0 3 = some (0x40, 2, fl 0 0 0 0) := by decide
theorem test_jmpi_odd_target : sees (machine [] (fl 1 1 0 1) 0xFE) 0x90FF 0 = some (0, 0xFF, fl 0 0 1 0) := by decide
theorem test_jeqi :
    sees (machine [] (fl 0 0 1 0) 0) 0x9140 0 = some (0, 0x40, fl 0 0 1 0) ∧
    sees (machine [] (fl 0 0 0 0) 0) 0x9140 0 = some (0, 2, fl 0 0 1 0) := by decide
theorem test_jgti :
    sees (machine [] (fl 1 0 0 0) 0) 0x9240 0 = some (0, 0x40, fl 0 0 1 0) ∧
    sees (machine [] (fl 1 0 1 0) 0) 0x9240 0 = some (0, 2, fl 0 0 1 0) := by decide
theorem test_jgei :
    sees (machine [] (fl 1 0 1 0) 0) 0x9340 0 = some (0, 0x40, fl 0 0 1 0) ∧
    sees (machine [] (fl 0 1 0 0) 0) 0x9340 0 = some (0, 2, fl 0 0 1 0) := by decide
theorem test_jgtsi :
    sees (machine [] (fl 0 1 0 1) 0) 0x9440 0 = some (0, 0x40, fl 0 0 1 0) ∧
    sees (machine [] (fl 1 0 1 0) 0) 0x9440 0 = some (0, 2, fl 0 0 1 0) := by decide
theorem test_jgesi :
    sees (machine [] (fl 0 0 0 0) 0) 0x9540 0 = some (0, 0x40, fl 0 0 1 0) ∧
    sees (machine [] (fl 0 1 0 0) 0) 0x9540 0 = some (0, 2, fl 0 0 1 0) := by decide

/-- The fatal decodes in a step, whatever the flags (R170, R171). -/
theorem test_faults :
    faultOfWord (machine [] (fl 0 0 0 0) 0) 0xA800 = some (.illegalOpcode 0xA8) ∧
    faultOfWord (machine [] (fl 0 0 0 0) 0) 0x67FF = some (.illegalCondition 7) ∧
    faultOfWord (machine [] (fl 0 0 0 0) 0) 0x9600 = some (.illegalCondition 6) := by decide

/-- `ld r7` reads at the old `x[7]`. -/
theorem test_ld_into_address_register :
    sees { machine [(7, 0x30)] (fl 0 0 0 0) 0 with mem := [(0x30, 0x55)] } 0x6F00 7 = some (0x55, 2, fl 0 0 1 0) := by decide
theorem test_ld_own_high_byte : sees (machine [] (fl 1 1 0 1) 0) 0x6A00 2 = some (0x6A, 2, fl 0 0 1 0) := by decide
theorem test_st_one_register_adds_x0 :
    stores (machine [(0, 1), (3, 0x99), (7, 0x40)] (fl 0 0 0 0) 0) 0x7003 0x40 = some (0x9A, fl 0 1 0 0) := by decide
theorem test_st_sum_wraps :
    stores (machine [(3, 200), (4, 100), (7, 0x40)] (fl 0 0 0 0) 0) 0x7034 0x40 = some (44, fl 1 0 0 0) := by decide
theorem test_sti_sets_overflow : stores (machine [(7, 0x40)] (fl 0 0 0 0) 0) 0x98FF 0x40 = some (0xFF, fl 0 1 0 1) := by decide
/-- R37, R182: at the character device the byte is printed and memory stays; a zero stored removes the cell. -/
theorem test_sti_at_device_and_zero :
    (runWord (machine [(7, 254)] (fl 0 0 0 0) 0) 0x9841).map (fun t => (t.devices.head?, t.mem.read 254))
      = some (some ⟨254, .charOut [0x41]⟩, 0) ∧
    (runWord { machine [(7, 0x40)] (fl 0 0 0 0) 0 with mem := [(0x40, 7)] } 0x9800).map (·.mem.read 0x40) = some 0 := by
  decide

theorem test_imm : sees (machine [] (fl 1 1 0 1) 0) 0xA3FF 3 = some (255, 2, fl 0 0 1 0) := by decide
/-- R161: the byte is the draw of the first index, and the index is used up. -/
theorem test_rand :
    (runWord (machine [] (fl 0 0 0 0) 0) 0x7C00).map (fun t => (t.draws, t.flags)) = some (1, fl 0 0 1 0) ∧
    ∃ t, exec (.rand 4) State.reset = .next t ∧ t.reg 4 = Config.draw 0 := ⟨by decide, _, rfl, rfl⟩
theorem test_halt :
    (runWord (machine [(2, 8)] (fl 0 0 0 0) 6) 0x8000).map (fun t => (t.halted, t.pc, t.reg 2, t.flags))
      = some (true, 8, 8, fl 0 0 1 0) := by decide
theorem test_nop : sees (machine [(0, 0x80)] (fl 1 1 0 1) 254) 0x8800 0 = some (0x80, 0, fl 0 0 1 0) := by decide

/-- A word that straddles the end of memory (R34; spec/95_test_vectors.md 2.9). -/
theorem test_word_straddles_end : sees (machine [] (fl 0 0 0 0) 255) 0xA007 0 = some (7, 1, fl 0 0 1 0) := by decide

/-- R31: with the low byte first, the same word runs from swapped bytes. -/
theorem test_low_byte_first :
    sees { machine [] (fl 0 0 0 0) 0 with cfg := { Config.default with wordOrder := .lowFirst } } 0xA007 0
      = some (7, 2, fl 0 0 1 0) := by decide

/-- R36, D22: two devices at one address are read in order, each answers a draw of its own, and their bytes are ORed; the
count of calls is two. -/
theorem test_two_devices_or :
    readPorts 0x40 [⟨0x40, .other 1 []⟩, ⟨0x41, .charOut []⟩, ⟨0x40, .other 2 []⟩] 5 =
      (Config.draw 5 ||| (Config.draw 6 ||| 0),
        [⟨0x40, .other 1 [.read]⟩, ⟨0x41, .charOut []⟩, ⟨0x40, .other 2 [.read]⟩], 7) := rfl

/-- R183 (spec/95_test_vectors.md 1.8): 0x12 sets pixel (1,2) and displays nothing; 0xFF displays and clears. -/
theorem test_pixels :
    (writePixels 0 0x12 ⟨clearFrame, none⟩).back[1][2] = true ∧ (writePixels 0 0x12 ⟨clearFrame, none⟩).shown = none ∧
    (writePixels 0 0xFF (writePixels 0 0x12 ⟨clearFrame, none⟩)).shown.map (fun f => f[1][2]) = some true ∧
    (writePixels 0 0xFF (writePixels 0 0x12 ⟨clearFrame, none⟩)).back[1][2] = false := by decide

/-- R193: a load of 255 bytes succeeds, one of 256 bytes fails. -/
theorem test_load_limit :
    (State.reset.load (List.replicate 255 1)).isSome = true ∧ (State.reset.load (List.replicate 256 1)).isSome = false := by
  decide +kernel

/-! ### Witnesses: for every obligation with hypotheses, values that meet them, at the ends of their ranges -/

/-- The machine about to run a word. -/
def about (regs : List (RegNum × Byte)) (flags : Flags) (pc : Byte) (w : Nat) : State :=
  (machine regs flags pc).withFetchWord 16 w

/-- The instruction that the next step decodes. -/
def next? (s : State) : Except DecodeError Instr := decode s.cfg s.fetchWord.hi s.fetchWord.lo

theorem witness_DecodeReadsWhatEncodeWrites :
    Config.default.wf = true ∧ (Instr.add 3 4 (.lit (-8))).wf = true ∧ (Instr.jges 3 (.lit 7)).wf = true ∧
    Instr.halt.wf = true := by decide

theorem witness_EncodeWritesWhatDecodeReads :
    Config.default.wf = true ∧ decode Config.default 0x02 0x09 = .ok (.add 2 0 (.reg 1)) ∧
    decode Config.default 0xA7 0xFF = .ok (.imm 7 0xFF) := by decide

theorem witness_IllegalWordsAreExactlyTwoKinds :
    Config.default.wf = true ∧ (about [] (fl 0 0 0 0) 0 0xA800).halted = false ∧
    next? (about [] (fl 0 0 0 0) 0 0xA800) = .error (.illegalOpcode 0xA8) ∧
    next? (about [] (fl 0 0 0 0) 255 0xFFFF) = .error (.illegalOpcode 0xFF) ∧
    next? (about [] (fl 0 0 0 0) 0 0x6600) = .error (.illegalCondition 6) ∧
    next? (about [] (fl 0 0 0 0) 0 0x97FF) = .error (.illegalCondition 7) := by decide

/-- One alias for each kind of ignored field. -/
theorem witness_IgnoredFieldsHaveNoEffect :
    Config.default.wf = true ∧ Config.default.opOf (opcodeField 0x02) = some .add ∧
    SameButIgnored .add 0x02 0x01 0x02 0x09 ∧ SameButIgnored .cmp 0x20 0xB5 0x27 0xB5 ∧
    SameButIgnored .st 0x70 0x03 0x77 0x0B ∧ SameButIgnored .ld 0x6A 0x00 0x6A 0xFF ∧
    SameButIgnored .halt 0x80 0x00 0x87 0x55 ∧ SameButIgnored .sti 0x98 0x41 0x9F 0x41 := by
  refine ⟨by decide, by decide, ?_, ?_, ?_, ?_, ?_, ?_⟩ <;> unfold SameButIgnored <;> decide

theorem witness_RFormatFieldsArePacked :
    rDestinationOk Config.default 0 (.reg 7) = true ∧ rDestinationOk Config.default 12 (.cond 5) = true ∧
    rDestinationOk Config.default 31 (.reg 0) = true := by decide

theorem witness_IFormatFieldsArePacked :
    immDstOk Config.default 18 (.cond 0) = true ∧ immDstOk Config.default 19 (.reg 0) = true ∧
    immDstOk Config.default 20 (.reg 7) = true ∧ immDstOk Config.default 0 (.reg 3) = true := by decide

theorem witness_RFormatFailuresAreReported :
    encodeRecord Config.default (.rfmt 0 (.reg 0) (.reg 0) (.int 8)) = .error .literalOutOfRange ∧
    encodeRecord Config.default (.rfmt 12 (.cond 0) (.label []) (.int 7)) = .error .badOperandA := by decide

theorem witness_IFormatFailuresAreReported :
    Config.default.wf = true ∧
    encodeRecord Config.default (.ifmt 18 (.reg 0) (.int 0)) = .error .badDestination ∧
    encodeRecord Config.default (.ifmt 20 (.reg 0) (.bare [])) = .error .valueNotInteger := by decide

theorem witness_RawByteIsEmitted : notInt (.reg 0) = true ∧ Operand.int 256 = .int 256 := by decide

theorem witness_EncoderDoesNotCrossCheck :
    Config.default.wf = true ∧ (OperandB.lit (-8)).wf = true ∧ (OperandB.lit 7).wf = true ∧ (OperandB.reg 7).wf = true := by
  decide

theorem witness_EncoderBlockRefinesEncode :
    Config.default.wf = true ∧ (Instr.st 3 (.lit (-8))).wf = true ∧ (Instr.jmpi 255).wf = true := by decide

theorem witness_SourceFormsAssemble :
    Config.default.wf = true ∧ (Instr.jeq 3 (.lit 7)).wf = true ∧ (Instr.rand 7).wf = true := by decide

theorem witness_PseudoInstructionsAssemble :
    Config.default.wf = true ∧ lookup jumpOps "jmp".toList = some .always ∧ lookup jumpOps "jges".toList = some .jges := by
  decide +kernel

theorem witness_StepRunsDecodedInstruction :
    (about [] (fl 0 0 0 0) 255 0xA007).halted = false ∧ next? (about [] (fl 0 0 0 0) 255 0xA007) = .ok (.imm 0 7) ∧
    (about [] (fl 0 0 0 0) 255 0xA007).cfg.fetchViaDevices = false := by decide

theorem witness_EncodedInstructionRuns :
    let s := about [] (fl 0 0 0 0) 255 0xA007
    s.halted = false ∧ s.cfg.wf = true ∧ s.cfg.fetchViaDevices = false ∧ (Instr.imm 0 7).wf = true ∧
    [s.mem.read s.pc.toNat, s.mem.read ((s.pc.toNat + 1) % 256)] = encodeBytes s.cfg (.imm 0 7) := by decide

/-- Each of the four outcomes occurs. -/
theorem witness_StepHasOneOfFourOutcomes :
    (State.reset.setHalted).halted = true ∧ next? State.reset = .ok (.add 0 0 (.reg 0)) ∧
    next? (about [] (fl 0 0 0 0) 0 0xA800) = .error (.illegalOpcode 0xA8) ∧
    next? (about [] (fl 0 0 0 0) 0 0x6600) = .error (.illegalCondition 6) := by decide

theorem witness_StepAdvancesPcByTwo :
    let s := about [] (fl 0 0 0 0) 254 0x9140
    s.halted = false ∧ next? s = .ok (.jeqi 0x40) ∧ ¬ taken (.jeqi 0x40) s.flags ∧ ∃ t, step s = .next t :=
  ⟨by decide, by decide, fun ⟨_, hk, hc⟩ => by cases hk; exact absurd hc (by decide), _, rfl⟩

theorem witness_OnlyHaltSetsHaltedOnlyResetClears :
    (∃ t, exec .halt State.reset = .next t) ∧ State.reset.setHalted.halted = true ∧
    ∃ t, State.reset.load [0x80, 0] = some t := ⟨⟨_, rfl⟩, rfl, _, rfl⟩

theorem witness_HaltedRunChangesNothing : State.reset.setHalted.halted = true := rfl

theorem witness_NonAluInstructionsLeaveZeroFlags :
    nonAlu (.ld 7) = true ∧ nonAlu (.rand 0) = true ∧ nonAlu .halt = true ∧ nonAlu .nop = true ∧
    nonAlu (.jmpi 0) = true ∧ nonAlu (.jgesi 0) = true ∧ nonAlu (.imm 0 0) = true := by decide

/-- A register that is not the destination; a register that is not read, among them the destination itself. -/
theorem witness_RegistersReadAndWrittenAsListed :
    (∃ t, exec (.add 2 0 (.reg 1)) State.reset = .next t) ∧ destOf (.add 2 0 (.reg 1)) ≠ some 0 ∧
    ¬ reads (.add 2 0 (.reg 1)) 2 ∧ ¬ reads (.ld 0) 0 ∧ ¬ reads .nop 7 := by
  refine ⟨⟨_, rfl⟩, by decide, ?_, ?_, ?_⟩ <;> simp [reads, aluOperands, addresses, Instr.opName]

/-- Each difference that the statement speaks of occurs. -/
theorem witness_EachPieceOfStateHasItsWriters :
    (∃ t, exec (.sti 9) State.reset = .next t ∧ ¬ KeepsMemory State.reset t) ∧
    (∃ t, exec .halt State.reset = .next t ∧ t.halted ≠ State.reset.halted) ∧
    (∃ t, exec (.jmpi 9) State.reset = .next t ∧ t.pc ≠ State.reset.pc) ∧
    (∃ t, exec (.sti 9) (machine [(7, 254)] (fl 0 0 0 0) 0) = .next t ∧
      t.devices ≠ (machine [(7, 254)] (fl 0 0 0 0) 0).devices ∧ t.draws ≠ (machine [(7, 254)] (fl 0 0 0 0) 0).draws) ∧
    ∃ t, exec (.rand 0) State.reset = .next t ∧ t.draws ≠ State.reset.draws :=
  ⟨⟨_, rfl, fun h => absurd (h 0) (by decide)⟩, ⟨_, rfl, by decide⟩, ⟨_, rfl, by decide⟩,
    ⟨_, rfl, by decide, by decide⟩, _, rfl, by decide⟩

theorem witness_StepKeepsConfiguration : ∃ t, step (about [(7, 254)] (fl 0 0 0 0) 0 0x9841) = .next t := ⟨_, rfl⟩

theorem witness_StepKeepsInvariant :
    (about [(7, 255)] (fl 0 0 0 0) 0 0x9841).Inv ∧ ∃ t, step (about [(7, 255)] (fl 0 0 0 0) 0 0x9841) = .next t :=
  ⟨⟨by decide, by decide⟩, _, rfl⟩

theorem witness_HostOperationsKeepInvariant :
    (about [] (fl 0 0 0 0) 0 0x9841).Inv ∧ ∃ t, (about [] (fl 0 0 0 0) 0 0x9841).load [1, 0, 2] = some t :=
  ⟨⟨by decide, by decide⟩, _, rfl⟩

/-- A RAND; a device's address and one beside it; both values of `FETCH_VIA_DEVICES`; a pair of devices at one address. -/
theorem witness_DrawsAreNeverReused :
    (∃ t, step (about [] (fl 0 0 0 0) 0 0x7C00) = .next t) ∧
    (machine [(7, 254)] (fl 0 0 0 0) 0).hasDevice (machine [(7, 254)] (fl 0 0 0 0) 0).dataAddress = true ∧
    State.reset.hasDevice 253 = true ∧ State.reset.hasDevice 252 = false ∧
    State.reset.cfg.fetchViaDevices = false ∧
    ({ State.reset with cfg := { Config.default with fetchViaDevices := true } } : State).cfg.fetchViaDevices = true ∧
    callsBefore 254 State.reset.devices 2 = 1 ∧ callsBefore 252 State.reset.devices 2 = 0 ∧
    let ps : List Port := [⟨64, .other 1 []⟩, ⟨65, .charOut []⟩, ⟨64, .other 2 []⟩]
    (0 < 2 ∧ ps[0]? = some ⟨64, .other 1 []⟩ ∧ ps[2]? = some ⟨64, .other 2 []⟩) ∧
    callsBefore 64 ps 0 = 0 ∧ callsBefore 64 ps 2 = 1 ∧ callsBefore 64 ps 3 = 2 :=
  ⟨⟨_, rfl⟩, by decide⟩

/-- ST and STI at an address without a device and at a device's address. -/
theorem witness_StoreIsSeenByNextLoadAndFetch :
    let s := machine [(1, 3), (7, 252)] (fl 0 0 0 0) 0
    let d := machine [(1, 3), (7, 254)] (fl 0 0 0 0) 0
    (s.mem.wf = true ∧ s.cfg.fetchViaDevices = false ∧ s.hasDevice (s.reg 7) = false) ∧
    (d.mem.wf = true ∧ d.cfg.fetchViaDevices = false ∧ d.hasDevice (d.reg 7) = true) ∧
    (∃ t, exec (.st 0 (.reg 1)) s = .next t) ∧ (∃ t, exec (.sti 9) s = .next t) ∧
    (∃ t, exec (.st 0 (.reg 1)) d = .next t) ∧ ∃ t, exec (.sti 9) d = .next t :=
  ⟨by decide, by decide, ⟨_, rfl⟩, ⟨_, rfl⟩, ⟨_, rfl⟩, _, rfl⟩

/-- Operand B at each end of the literals and of the registers, for the source form that each of these statements has as a
clause: AddWritesSum, AddcWritesSumWithCarry, SubWritesDifference, SubcWritesDifferenceWithBorrow, CmpSetsFlagsOfDifference,
CmpcSetsFlagsOfDifferenceWithBorrow, LogicWritesBitwiseResult, ShrShiftsSum, ShrcShiftsSumThroughCarry, RegisterJumpsTakeSum,
StStoresSum. -/
theorem witness_source_forms :
    (OperandB.lit (-8)).wf = true ∧ (OperandB.lit 7).wf = true ∧ (OperandB.reg 0).wf = true ∧
    (OperandB.reg 7).wf = true := by decide

/-- Both values of `OVF_B_SOURCE`: SubWritesDifference, CmpSetsFlagsOfDifference, ConditionsAfterCompareAreOrders. -/
theorem witness_overflow_source :
    State.reset.cfg.ovfBSource = .inverted ∧
    ({ State.reset with cfg := { Config.default with ovfBSource := .raw } } : State).cfg.ovfBSource = .raw ∧
    (∃ u, exec (.sub 7 0 (.reg 1)) State.reset = .next u) ∧ ∃ u, exec (.subc 7 0 (.reg 1)) State.reset = .next u :=
  ⟨rfl, rfl, ⟨_, rfl⟩, _, rfl⟩

theorem witness_LogicWritesBitwiseResult :
    let s := State.reset
    ((Instr.and 7 0 (.lit (-1)), s.reg 0 &&& s.operandB (.lit (-1)), false) : Instr × Byte × Bool) =
      (.and 7 0 (.lit (-1)), 0, false) := by decide

theorem witness_ConditionsReadFlags :
    Config.default.wf = true ∧ (∀ k, Config.default.condCode k ≠ 6) ∧ ∀ k, Config.default.condCode k ≠ 7 :=
  ⟨by decide, fun k => by cases k <;> decide, fun k => by cases k <;> decide⟩

/-- RegisterJumpsTakeSum, ImmediateJumpsTakeImmediate; StiStoresImmediate for its folded integers. -/
theorem witness_jump_mnemonics :
    lookup jumpOps "jmp".toList = some .always ∧ lookup jumpOps "jeq".toList = some .jeq ∧
    lookup jumpOps "jgt".toList = some .jgt ∧ lookup jumpOps "jge".toList = some .jge ∧
    lookup jumpOps "jgts".toList = some .jgts ∧ lookup jumpOps "jges".toList = some .jges ∧
    (-2 : Int) % 256 = (254 : Byte).toNat ∧ (256 : Int) % 256 = (0 : Byte).toNat := by decide +kernel

/-- An address without a device, and the two that have one, beside each other: DataReadDispatchesToDevices,
DataWriteDispatchesToDevices, LdLoadsFromRegisterSeven, StStoresSum, StiStoresImmediate, OneRegisterStoreAddsRegisterZero. -/
theorem witness_device_addresses :
    (∀ p ∈ State.reset.devices, p.addr ≠ 255) ∧ (∀ p ∈ State.reset.devices, p.addr ≠ 252) ∧
    (∃ p ∈ State.reset.devices, p.addr = 254) ∧ (∃ p ∈ State.reset.devices, p.addr = 253) ∧
    (machine [(7, 252)] (fl 0 0 0 0) 0).hasDevice (machine [(7, 252)] (fl 0 0 0 0) 0).dataAddress = false ∧
    (machine [(7, 253)] (fl 0 0 0 0) 0).hasDevice (machine [(7, 253)] (fl 0 0 0 0) 0).dataAddress = true ∧
    (machine [(7, 252)] (fl 0 0 0 0) 0).mem.wf = true ∧ (machine [(7, 252)] (fl 0 0 0 0) 0).cfg.fetchViaDevices = false ∧
    ∃ t, exec (.st 0 (.reg 1)) (machine [(7, 252)] (fl 0 0 0 0) 0) = .next t :=
  ⟨by decide, by decide, by decide, by decide, by decide, by decide, by decide, by decide, _, rfl⟩

/-- Bytes on both sides of each clause: row 14 is the last, and 0xFF is no pixel. -/
theorem witness_PixelDeviceSetsAndFlushes :
    (0xFE : Byte) ≠ 0xFF ∧ (0xFE : Byte).toNat % 16 < 15 ∧ (0x0F : Byte) ≠ 0xFF ∧ ¬ (0x0F : Byte).toNat % 16 < 15 := by decide

theorem witness_ImmWritesImmediate :
    (-1 : Int) % 256 = (255 : Byte).toNat ∧ (255 : Int) % 256 = (255 : Byte).toNat ∧ (-128 : Int) % 256 = (128 : Byte).toNat := by
  decide

theorem witness_OperandFieldsGiveValues :
    (0x7F : Byte).toNat < 128 ∧ 128 ≤ (0x80 : Byte).toNat ∧ (0x87 : Byte).toNat % 16 < 8 ∧
    ¬ (0x88 : Byte).toNat % 16 < 8 := by decide

theorem witness_LoadCopiesImage :
    256 ≤ (List.replicate 256 (1 : Byte)).length ∧ (List.replicate 255 (1 : Byte)).length < 256 ∧
    State.reset.mem.wf = true := by decide +kernel

/-- A source of each kind of record, with a label at each end. -/
theorem witness_ImageIsAsLongAsRunningAddress :
    assemble Config.default "x: byte 1\nimm r7 x\nst r1\ny:".toList = .ok [1, 0xA7, 0, 0x70, 1] := by decide +kernel

/-- R85: an image of 255 bytes is one, and a record that would end at 256 or 257 is refused; a label may stand at 255. -/
theorem test_image_bound :
    (passOneLine Config.default 9 "byte 1".toList ⟨254, [], [], []⟩).toOption.map AsmState.addr = some 255 ∧
    (passOneLine Config.default 9 "halt".toList ⟨253, [], [], []⟩).toOption.map AsmState.addr = some 255 ∧
    passOneLine Config.default 9 "x: byte 1".toList ⟨255, [], [], []⟩ = .error .imageTooLong ∧
    passOneLine Config.default 9 "halt".toList ⟨254, [], [], []⟩ = .error .imageTooLong ∧
    (passOneLine Config.default 9 "x: # end".toList ⟨255, [], [], []⟩).toOption.map AsmState.labels =
      some [("x".toList, 255)] := by decide +kernel

/-- R85: 255 lines of `byte 1` assemble, and with one more the assembly fails at line 256. -/
theorem test_image_bound_of_assembly :
    (assemble Config.default (List.replicate 255 "byte 1\n".toList).flatten).toOption.map List.length = some 255 ∧
    assemble Config.default (List.replicate 256 "byte 1\n".toList).flatten = .error (256, .imageTooLong) := by
  decide +kernel

end Sys2Proof.Tests
end

section
/-! What a step does to the state before its flag update, said once for all 31 constructors, and from it the three
statements about the state: R11 (reset), R16 (pc), R18 (halted). -/

namespace Sys2Proof.Claims

open Sys2Proof Sys2Proof.Machine

/-! ### The step and its instruction -/

/-- A machine that is not halted executes what it decodes, with the pc already advanced (R90). -/
theorem step_of_decode {s : State} {i : Instr} (hrun : s.halted = false)
    (hdec : decode s.cfg s.fetchWord.hi s.fetchWord.lo = .ok i) :
    step s = exec i s.fetchWord.after.advancePc := by
  simp [step, hrun, hdec]

/-- A halted machine steps to itself (R18). -/
theorem step_of_halted {s : State} (h : s.halted = true) : step s = .next s := by
  simp [step, h]

/-- The states `u` that instruction `i` can make of `s` before the flag update that ends its step (R99). Each constructor
is one kind of effect, with the instructions that have it. -/
inductive EffectBeforeFlags (i : Instr) (s : State) : State → Prop
  | writesRegister {d : RegNum} (hd : destOf i = some d) (v : Byte) : EffectBeforeFlags i s (s.setReg d v)
  | writesNothing (hi : i ≠ .halt) : EffectBeforeFlags i s s
  | branches {k : Cond} (hk : jumpCond i = some k) (target : Byte) : EffectBeforeFlags i s (branch k target s)
  | loads {d : RegNum} (hi : i = .ld d) :
      EffectBeforeFlags i s ((s.memRead s.dataAddress).2.setReg d (s.memRead s.dataAddress).1)
  | stores (hi : i.opName = .st ∨ i.opName = .sti) (v : Byte) :
      EffectBeforeFlags i s (s.memWrite s.dataAddress v)
  | draws {d : RegNum} (hi : i = .rand d) : EffectBeforeFlags i s (s.draw.2.setReg d s.draw.1)
  | halts (hi : i = .halt) : EffectBeforeFlags i s s.setHalted

/-- Every instruction has one of these effects and then writes the flags of some accumulator. -/
theorem exec_eq_finish (i : Instr) (s : State) :
    ∃ u out a b, EffectBeforeFlags i s u ∧ exec i s = finish out a b u := by
  cases i with
  | add d | addc d | sub d | subc d | xor d | nand d | or d | and d | shr d | shrc d | imm d =>
    exact ⟨_, _, _, _, .writesRegister rfl _, rfl⟩
  | cmp | cmpc | nop => exact ⟨_, _, _, _, .writesNothing nofun, rfl⟩
  | jmp | jeq | jgt | jge | jgts | jges | jmpi | jeqi | jgti | jgei | jgtsi | jgesi =>
    exact ⟨_, _, _, _, .branches rfl _, rfl⟩
  | ld => exact ⟨_, _, _, _, .loads rfl, rfl⟩
  | st => exact ⟨_, _, _, _, .stores (.inl rfl) _, rfl⟩
  | sti => exact ⟨_, _, _, _, .stores (.inr rfl) _, rfl⟩
  | rand => exact ⟨_, _, _, _, .draws rfl, rfl⟩
  | halt => exact ⟨_, _, _, _, .halts rfl, rfl⟩

/-- The state an instruction answers is one of its effects with the flags written. -/
theorem effectBeforeFlags_of_exec {i : Instr} {s t : State} (h : exec i s = .next t) :
    ∃ u f, EffectBeforeFlags i s u ∧ t = u.setFlags f := by
  obtain ⟨u, out, a, b, hu, he⟩ := exec_eq_finish i s
  exact ⟨u, _, hu, finish_spec (he ▸ h)⟩

/-! ### The pc (R16) -/

/-- A branch whose condition does not hold changes nothing (R140, R141). -/
theorem branch_of_not_condHolds {k : Cond} {s : State} (target : Byte) (h : ¬ condHolds k s.flags = true) :
    branch k target s = s := if_neg h

/-- Only a taken jump writes the pc. -/
theorem EffectBeforeFlags.pc_eq {i : Instr} {s u : State} (h : EffectBeforeFlags i s u)
    (hnot : ¬ taken i s.flags) : u.pc = s.pc := by
  cases h with
  | branches hk target => rw [branch_of_not_condHolds target fun hc => hnot ⟨_, hk, hc⟩]
  | writesRegister | writesNothing | loads | stores | draws | halts => simp

/-- An instruction that is no taken jump leaves the pc, which the step has advanced, where it is. -/
theorem exec_pc {i : Instr} {s t : State} (h : exec i s = .next t) (hnot : ¬ taken i s.flags) : t.pc = s.pc := by
  obtain ⟨u, f, hu, rfl⟩ := effectBeforeFlags_of_exec h
  exact hu.pc_eq hnot

/-- Settles O18: the fetch keeps the pc and the flags, the step advances the pc, and the instruction keeps it. -/
theorem stepAdvancesPcByTwo : Obligations.StepAdvancesPcByTwo := by
  intro s t i hrun hdec hnot hstep
  obtain ⟨-, hpc, hflags, -⟩ := fetchWord_spec s
  rw [step_of_decode hrun hdec] at hstep
  have hkeep : t.pc = s.fetchWord.after.advancePc.pc := exec_pc hstep (by simpa [hflags] using hnot)
  simp [hkeep, hpc, BitVec.toNat_add]

/-! ### The halted flag (R18) -/

/-- HALT sets `halted`; every other effect keeps it. -/
theorem EffectBeforeFlags.halted_eq {i : Instr} {s u : State} (h : EffectBeforeFlags i s u) :
    u.halted = (s.halted || i == .halt) := by
  cases h with
  | halts hi | writesNothing hi | loads hi | draws hi => simp [hi]
  | writesRegister hd v =>
    have hi : i ≠ .halt := by rintro rfl; cases hd
    simp [hi]
  | branches hk target =>
    have hi : i ≠ .halt := by rintro rfl; cases hk
    simp [hi]
  | stores hs v =>
    have hi : i ≠ .halt := by rintro rfl; simp [Instr.opName] at hs
    simp [hi]

/-- After an instruction the machine is halted if it was, or if the instruction is HALT. -/
theorem exec_halted {i : Instr} {s t : State} (h : exec i s = .next t) : t.halted = (s.halted || i == .halt) := by
  obtain ⟨u, f, hu, rfl⟩ := effectBeforeFlags_of_exec h
  exact hu.halted_eq

/-- HALT's next state (R162). -/
theorem exec_halt (s : State) : exec .halt s = .next (s.setHalted.setFlags ⟨false, false, true, false⟩) :=
  finishNonAlu_eq s.setHalted

/-- A load succeeds exactly on an image below 256 bytes, and writes memory only (R43, R193). -/
theorem load_eq_some_iff {s t : State} {image : List Byte} :
    s.load image = some t ↔ image.length < 256 ∧ { s with mem := s.mem.copy 0 image } = t := by
  simp [State.load]

/-- Settles O19, from the effect of every instruction on `halted` and the equations of the host's operations. -/
theorem onlyHaltSetsHaltedOnlyResetClears : Obligations.OnlyHaltSetsHaltedOnlyResetClears := by
  refine ⟨fun s t i => exec_halted, fun s => ⟨_, exec_halt s, rfl⟩, fun s => step_of_halted, ?load, fun _ => rfl, rfl⟩
  case load =>
    intro s t image h
    obtain ⟨-, rfl⟩ := load_eq_some_iff.mp h
    rfl

/-! ### Reset (R11, R190) -/

@[simp] theorem applyReset_reg (s : State) (r : RegNum) : s.applyReset.reg r = 0 := State.reset_reg r
@[simp] theorem applyReset_pc (s : State) : s.applyReset.pc = 0 := rfl
@[simp] theorem applyReset_flags (s : State) : s.applyReset.flags = ⟨false, false, false, false⟩ := rfl
@[simp] theorem applyReset_halted (s : State) : s.applyReset.halted = false := rfl
@[simp] theorem applyReset_mem (s : State) : s.applyReset.mem = [] := rfl
@[simp] theorem applyReset_cfg (s : State) : s.applyReset.cfg = s.cfg := rfl

/-- A memory that lists no cell reads 0 everywhere (R11). -/
@[simp] theorem memory_read_nil (a : Nat) : Memory.read [] a = 0 := rfl

/-- Settles O57: both resets, field by field; with all flags 0, JEQ's `Z` fails and JGES's `V = S` holds. -/
theorem resetClearsAllState : Obligations.ResetClearsAllState := by
  constructor
  · simp [flagBits, condHolds]
  · intro s
    simp [flagBits]

end Sys2Proof.Claims
end

section
/-! The host's load (R43, R193): the image stands in memory from address 0, and everything else is as before. -/

namespace Sys2Proof.Claims

open Sys2Proof Sys2Proof.Machine

/-- A load fails exactly on an image of 256 bytes or more (R193). -/
theorem load_eq_none_iff {s : State} {image : List Byte} : s.load image = none ↔ 256 ≤ image.length := by
  simp [State.load]

/-- A copy leaves the addresses past its end alone, whatever the form of the memory's list. -/
theorem memory_read_copy_above (m : Memory) {a x : Nat} (vs : List Byte) (hx : a + vs.length ≤ x) :
    (m.copy a vs).read x = m.read x := by
  induction vs generalizing m a with
  | nil => rfl
  | cons v vs ih =>
    rw [List.length_cons] at hx
    calc ((m.write a v).copy (a + 1) vs).read x
      _ = (m.write a v).read x := ih _ (by omega)
      _ = m.read x := Memory.read_write_of_ne m v (by omega)

/-- Settles O59: a load that succeeds writes the memory only, and a copy from address 0 puts byte `i` at address `i` and
keeps every byte from its length on. -/
theorem loadCopiesImage : Obligations.LoadCopiesImage := by
  intro s image
  refine ⟨load_eq_none_iff.mpr, fun hlen => ?short, load_eq_some_iff.mpr ⟨by decide, rfl⟩⟩
  case short =>
    refine ⟨_, load_eq_some_iff.mpr ⟨hlen, rfl⟩, fun _ => rfl, rfl, rfl, rfl, ⟨rfl, rfl, rfl⟩, ?image, ?later⟩
    case image =>
      intro hwf a
      simpa using Memory.read_copy (a := 0) hwf (by omega) a
    case later =>
      intro a ha
      exact memory_read_copy_above s.mem image (by omega)

end Sys2Proof.Claims
end

section
/-! The encoder block (R50 to R55, R60 to R63): when a record is refused, and the two bytes of an accepted one as numbers. -/

namespace Sys2Proof.Claims

open Sys2Proof Sys2Proof.Machine

/-! ### What the encoder block answers (R50, R60 to R62) -/

/-- A record that meets no failure condition is encoded. -/
theorem encodeRecord_of_failures_nil {c : Config} {r : Record} (h : failures c r = []) :
    encodeRecord c r = .ok (recordBytes c r) := by
  simp [encodeRecord, h]

/-- A record that meets exactly one failure condition reports it; there is nothing to choose. -/
theorem encodeRecord_of_failures_singleton {c : Config} {r : Record} {e : EncodeError} (h : failures c r = [e]) :
    encodeRecord c r = .error e := by
  simp [encodeRecord, h, reportedFailure]

/-- Whichever failure the free choice picks, it is one of those offered. -/
theorem reportedFailure_mem (r : Record) (e : EncodeError) (es : List EncodeError) :
    reportedFailure r e es ∈ e :: es := by
  cases es with
  | nil => exact List.mem_singleton_self e
  | cons e' es' =>
    have hlt : Config.failureChoice r % (e :: e' :: es').length < (e :: e' :: es').length :=
      Nat.mod_lt _ (Nat.succ_pos _)
    rw [reportedFailure, List.getD_eq_getElem _ _ hlt]
    exact List.getElem_mem hlt

/-- A reported failure is one whose condition the record meets. -/
theorem mem_failures_of_encodeRecord {c : Config} {r : Record} {e : EncodeError} (h : encodeRecord c r = .error e) :
    e ∈ failures c r := by
  unfold encodeRecord at h
  split at h
  next => cases h
  next e' es hf =>
    cases h
    exact hf ▸ reportedFailure_mem r e' es

/-- The encoder succeeds exactly on the records that meet no failure condition. -/
theorem encodeRecord_isOk_iff {c : Config} {r : Record} :
    (∃ bs, encodeRecord c r = .ok bs) ↔ failures c r = [] := by
  refine ⟨fun ⟨bs, hok⟩ => ?_, fun h => ⟨_, encodeRecord_of_failures_nil h⟩⟩
  unfold encodeRecord at hok
  split at hok
  next hf => exact hf
  next => cases hok

/-- On failure `len` is 0 and no byte is valid (R50). -/
theorem encoderPorts_of_error {c : Config} {r : Record} {e : EncodeError} (h : encodeRecord c r = .error e) :
    encoderPorts c r = ⟨0, none, none, some e⟩ := by
  simp [encoderPorts, h]

/-! ### The failures of an R-format record (R60) -/

/-- Operand B's failures, by its tag and its range. -/
theorem mem_bFailures_iff (b : Operand) (e : EncodeError) :
    e ∈ bFailures b ↔
      (e = .literalOutOfRange ∧ literalTooWide b = true) ∨ (e = .badOperandB ∧ notRegNorInt b = true) := by
  cases b with
  | int v =>
    by_cases hv : -8 ≤ v ∧ v ≤ 7
    · simp [bFailures, literalTooWide, notRegNorInt, hv]
    · have hwide : v < -8 ∨ 7 < v := by omega
      simp [bFailures, literalTooWide, notRegNorInt, hv, hwide]
  | reg | label | bare | cond => simp [bFailures, literalTooWide, notRegNorInt]

/-- An R-format record's failures, one part for each operand. -/
theorem failures_rfmt (c : Config) (n : BitVec 5) (dst a b : Operand) :
    failures c (.rfmt n dst a b) =
      (if rDestinationOk c n dst then [] else [.badDestination]) ++ (if a.isReg then [] else [.badOperandA]) ++
        bFailures b := rfl

/-- The failures the encoder collects are those whose condition R60 names. -/
theorem mem_failures_rfmt_iff (c : Config) (n : BitVec 5) (dst a b : Operand) (e : EncodeError) :
    e ∈ failures c (.rfmt n dst a b) ↔ rFailure c n dst a b e = true := by
  have hdst : e ∈ (if rDestinationOk c n dst then [] else [EncodeError.badDestination]) ↔
      e = .badDestination ∧ rDestinationOk c n dst = false := by
    cases rDestinationOk c n dst <;> simp
  have ha : e ∈ (if a.isReg then [] else [EncodeError.badOperandA]) ↔ e = .badOperandA ∧ a.isReg = false := by
    cases a.isReg <;> simp
  rw [failures_rfmt, List.mem_append, List.mem_append, hdst, ha, mem_bFailures_iff]
  cases e <;> simp [rFailure]

/-- Settles O8: a record is encoded when no condition is met, and a reported failure is among those met. -/
theorem rFormatFailuresAreReported : Obligations.RFormatFailuresAreReported := by
  intro c n dst a b
  constructor
  · simp only [encodeRecord_isOk_iff, List.eq_nil_iff_forall_not_mem, mem_failures_rfmt_iff, Bool.not_eq_true]
  · intro e herr
    exact ⟨(mem_failures_rfmt_iff c n dst a b e).mp (mem_failures_of_encodeRecord herr), encoderPorts_of_error herr⟩

/-! ### Raw bytes (R53) -/

/-- The low `w` bits of an integer are its mathematical modulus, also below 0 (R54, R55). -/
theorem ofInt_toNat (w : Nat) (v : Int) : ((BitVec.ofInt w v).toNat : Int) = v % (2 ^ w : Nat) := by
  rw [BitVec.toNat_ofInt, Int.toNat_of_nonneg (Int.emod_nonneg v (by positivity))]

/-- The integer's value byte is the integer mod 256 (R55). -/
theorem valueByte_int_toNat (v : Int) : ((Operand.int v).valueByte.toNat : Int) = v % 256 := ofInt_toNat 8 v

/-- Settles O10: the one failure condition of a raw byte is its value's tag, and its byte is the value's. -/
theorem rawByteIsEmitted : Obligations.RawByteIsEmitted := by
  intro c x
  constructor
  · intro hx
    have hf : failures c (.raw x) = [.valueNotInteger] := by
      cases x with
      | int => cases hx
      | reg | label | bare | cond => rfl
    exact encodeRecord_of_failures_singleton hf
  · rintro v rfl
    exact ⟨_, encodeRecord_of_failures_nil rfl, valueByte_int_toNat v⟩

/-! ### Accepted records -/

/-- The operand record of a well-formed operand B meets no failure condition (R54). -/
theorem bFailures_operandB {b : OperandB} (h : b.wf = true) : bFailures (operandB b) = [] := by
  cases b with
  | reg => rfl
  | lit v =>
    have hv : -8 ≤ v ∧ v ≤ 7 := by simpa [OperandB.wf] using h
    exact if_pos hv

/-- An R-format record with an accepted destination, a register A and a well-formed operand B is packed as it stands, for
every opcode number (R51, R54). -/
theorem encodeRecord_rfmt {c : Config} {n : BitVec 5} {dst : Operand} (a : RegNum) {b : OperandB}
    (hdst : rDestinationOk c n dst = true) (hb : b.wf = true) :
    encodeRecord c (.rfmt n dst (.reg a) (operandB b)) =
      .ok (wordBytes c (packHi n dst.dstBits) (packOperands a b)) := by
  have hf : failures c (.rfmt n dst (.reg a) (operandB b)) = [] := by
    simp [failures_rfmt, hdst, Operand.isReg, bFailures_operandB hb]
  have hlo : recordLo (.reg a) (operandB b) = packOperands a b := by cases b <;> rfl
  rw [encodeRecord_of_failures_nil hf, recordBytes, hlo, wordBytes]

/-- An I-format record with an accepted destination and an integer value is packed as it stands, for every opcode number
(R52, R55). -/
theorem encodeRecord_ifmt {c : Config} {n : BitVec 5} {dst : Operand} (v : Int) (hdst : immDstOk c n dst = true) :
    encodeRecord c (.ifmt n dst (.int v)) =
      .ok (wordBytes c (packHi n dst.dstBits) (Operand.int v).valueByte) :=
  encodeRecord_of_failures_nil (by simp [failures, hdst, valueFailures])

/-! ### A word's bytes as numbers (R51, R54) -/

/-- The high byte is `opnum * 8 + D`. -/
theorem packHi_toNat (n : BitVec 5) (d : BitVec 3) : (packHi n d).toNat = n.toNat * 8 + d.toNat := by
  revert n d; decide

/-- The low byte is `sel * 128 + A * 16 + bfield`. -/
theorem packLo_toNat (sel : Bool) (a : RegNum) (f : BitVec 4) :
    (packLo sel a f).toNat = sel.toNat * 128 + a.toNat * 16 + f.toNat := by
  revert sel a f; decide

/-- A register operand B is packed with `sel` 0. -/
theorem packOperands_reg_toNat (a r : RegNum) : (packOperands a (.reg r)).toNat = a.toNat * 16 + r.toNat := by
  have hr : (r.setWidth 4).toNat = r.toNat := BitVec.toNat_setWidth_of_le (by decide)
  simp [packOperands, packLo_toNat, hr]

/-- A literal operand B is packed with `sel` 1 and its 4-bit two's complement, which is its value mod 16. -/
theorem packOperands_lit_toNat (a : RegNum) (v : Int) :
    ((packOperands a (.lit v)).toNat : Int) = 128 + a.toNat * 16 + v % 16 := by
  have hv : ((BitVec.ofInt 4 v).toNat : Int) = v % 16 := ofInt_toNat 4 v
  simp only [packOperands, packLo_toNat, Bool.toNat_true]
  omega

/-- Settles O6: the encoder packs the two fields of each byte, and the decoder's fields of a packed byte are what was
packed. -/
theorem rFormatFieldsArePacked : Obligations.RFormatFieldsArePacked := by
  intro c n dst a hdst
  constructor
  case left =>
    intro r
    have hb : (OperandB.reg r).wf = true := rfl
    exact ⟨_, _, encodeRecord_rfmt a hdst hb, packHi_toNat _ _, packOperands_reg_toNat a r,
      regAField_packOperands a _, decodeB_packOperands a hb⟩
  case right =>
    intro v hlow hhigh
    have hb : (OperandB.lit v).wf = true := by simp [OperandB.wf, hlow, hhigh]
    exact ⟨_, _, encodeRecord_rfmt a hdst hb, packHi_toNat _ _, packOperands_lit_toNat a v,
      regAField_packOperands a _, decodeB_packOperands a hb⟩

end Sys2Proof.Claims
end

section
/-! The decoder by the opcode's format (R63, R92, R93): which words have an instruction, and which of the two errors the
others raise (R65). -/

namespace Sys2Proof.Claims

open Sys2Proof Sys2Proof.Machine

/-! ### The record's shape and the opcode's format (R63) -/

/-- The word of a defined opcode is decoded by that opcode's format. -/
theorem decode_of_opNumber {c : Config} (hwf : c.wf = true) {o : OpName} {hi : Byte}
    (ho : opcodeField hi = c.opNumber o) (lo : Byte) :
    decode c hi lo = if o.isImmediate then decodeI c o hi lo else decodeR c o hi lo := by
  simp only [decode, ho, Config.opOf_opNumber hwf, Config.inImmRange_opNumber hwf]

/-- An R-format record takes a register as its destination unless its number is JMP's (R60). -/
theorem rDestinationOk_reg {c : Config} {n : BitVec 5} (d : RegNum) (h : n ≠ c.opNumber .jmp) :
    rDestinationOk c n (.reg d) = true := by
  simp [rDestinationOk, h, Operand.isReg]

/-- An I-format record takes a register as its destination unless its number is JMPI's (R61). -/
theorem immDstOk_reg {c : Config} {n : BitVec 5} (d : RegNum) (h : n ≠ c.opNumber .jmpi) :
    immDstOk c n (.reg d) = true := by
  simp [immDstOk, h, Operand.isReg]

/-- Opcodes of different formats have different numbers (R57). -/
theorem opNumber_ne_of_isImmediate {c : Config} (hwf : c.wf = true) {o p : OpName}
    (ho : o.isImmediate = true) (hp : p.isImmediate = false) : c.opNumber o ≠ c.opNumber p := by
  intro e
  rw [Config.opNumber_injective hwf e, hp] at ho
  cases ho

/-- Settles O11: the encoder packs whatever number the record has, since it is not that of the one jump of the record's
own format; the decoder then goes by the number. -/
theorem encoderDoesNotCrossCheck : Obligations.EncoderDoesNotCrossCheck := by
  intro c o d hwf
  have hop : opcodeField (packHi (c.opNumber o) d) = c.opNumber o := opcodeField_packHi _ _
  have hdest : destField (packHi (c.opNumber o) d) = d := destField_packHi _ _
  constructor
  case left =>
    intro himm a b hb
    have hjmp : c.opNumber o ≠ c.opNumber .jmp := opNumber_ne_of_isImmediate hwf himm rfl
    refine ⟨_, encodeRecord_rfmt a (rDestinationOk_reg d hjmp) hb, hop, hdest, ?_⟩
    exact (decode_of_opNumber hwf hop _).trans (if_pos himm)
  case right =>
    intro himm v
    have hjmpi : c.opNumber o ≠ c.opNumber .jmpi := (opNumber_ne_of_isImmediate hwf rfl himm).symm
    refine ⟨_, _, encodeRecord_ifmt v (immDstOk_reg d hjmpi), hop, hdest, valueByte_int_toNat v, ?_⟩
    exact (decode_of_opNumber hwf hop _).trans (if_neg (by simp [himm]))

/-! ### The two decode errors (R65) -/

/-- A number that no opcode has is decoded to no name. -/
theorem opOf_eq_none_iff (c : Config) (n : BitVec 5) : c.opOf n = none ↔ ∀ o, c.opNumber o ≠ n := by
  simp [Config.opOf, OpName.mem_all]

/-- A code that no condition has is decoded to no condition. -/
theorem condOf_eq_none_iff (c : Config) (d : BitVec 3) : c.condOf d = none ↔ ∀ k, c.condCode k ≠ d := by
  simp [Config.condOf, Cond.mem_all]

/-- I-format decode of an I-format opcode fails exactly on JMPI with a code that is none. -/
theorem decodeI_eq_error_iff {o : OpName} (himm : o.isImmediate = true) (c : Config) (hi lo : Byte) (e : DecodeError) :
    decodeI c o hi lo = .error e ↔
      e = .illegalCondition (destField hi) ∧ o = .jmpi ∧ c.condOf (destField hi) = none := by
  cases o with
  | jmpi => cases hk : c.condOf (destField hi) <;> simp [decodeI, hk, eq_comm]
  | sti | imm => simp [decodeI]
  | _ => cases himm

/-- R-format decode of an R-format opcode fails exactly on JMP with a code that is none. -/
theorem decodeR_eq_error_iff {o : OpName} (himm : o.isImmediate = false) (c : Config) (hi lo : Byte) (e : DecodeError) :
    decodeR c o hi lo = .error e ↔
      e = .illegalCondition (destField hi) ∧ o = .jmp ∧ c.condOf (destField hi) = none := by
  cases o with
  | jmp => cases hk : c.condOf (destField hi) <;> simp [decodeR, hk, eq_comm]
  | jmpi | sti | imm => cases himm
  | _ => simp [decodeR]

/-- A word is refused exactly for one of R65's two reasons, each with its own error. -/
theorem decode_eq_error_iff {c : Config} (hwf : c.wf = true) (hi lo : Byte) (e : DecodeError) :
    decode c hi lo = .error e ↔
      (e = .illegalOpcode hi ∧ c.opOf (opcodeField hi) = none) ∨
      (e = .illegalCondition (destField hi) ∧
        (opcodeField hi = c.opNumber .jmp ∨ opcodeField hi = c.opNumber .jmpi) ∧ c.condOf (destField hi) = none) := by
  cases ho : c.opOf (opcodeField hi) with
  | none =>
    have hnone := (opOf_eq_none_iff c _).mp ho
    simp [decode, ho, (hnone _).symm, eq_comm]
  | some o =>
    have hnum : opcodeField hi = c.opNumber o := (Config.opNumber_of_opOf ho).symm
    have hname (p : OpName) : opcodeField hi = c.opNumber p ↔ o = p :=
      ⟨fun h => Config.opNumber_injective hwf (hnum.symm.trans h), fun h => h ▸ hnum⟩
    rw [decode_of_opNumber hwf hnum, hname, hname]
    cases himm : o.isImmediate with
    | true =>
      have hjmp : o ≠ .jmp := by rintro rfl; cases himm
      simp [decodeI_eq_error_iff himm, hjmp]
    | false =>
      have hjmpi : o ≠ .jmpi := by rintro rfl; cases himm
      simp [decodeR_eq_error_iff himm, hjmpi]

/-- A word is an illegal opcode exactly if its number decodes to no name. -/
theorem decode_eq_illegalOpcode_iff {c : Config} (hwf : c.wf = true) (hi lo : Byte) :
    decode c hi lo = .error (.illegalOpcode hi) ↔ c.opOf (opcodeField hi) = none := by
  simp [decode_eq_error_iff hwf]

/-- A word is an illegal condition exactly if it is a jump whose code decodes to no condition. -/
theorem decode_eq_illegalCondition_iff {c : Config} (hwf : c.wf = true) (hi lo : Byte) :
    decode c hi lo = .error (.illegalCondition (destField hi)) ↔
      (opcodeField hi = c.opNumber .jmp ∨ opcodeField hi = c.opNumber .jmpi) ∧ c.condOf (destField hi) = none := by
  simp [decode_eq_error_iff hwf]

/-! ### The illegal words of the default numbering (R57, R59, R65) -/

/-- A high byte as a number, from its two fields (R51). -/
theorem highByte_toNat (hi : Byte) : hi.toNat = (opcodeField hi).toNat * 8 + (destField hi).toNat := by
  rw [← packHi_toNat, packHi_fields]

/-- The default numbering gives the opcodes the numbers 0 to 20 (R57). -/
theorem default_opOf_eq_none_iff (n : BitVec 5) : Config.default.opOf n = none ↔ 21 ≤ n.toNat := by
  revert n; decide

/-- The default numbering gives the conditions the codes 0 to 5 (R59). -/
theorem default_condOf_eq_none_iff (d : BitVec 3) : Config.default.condOf d = none ↔ 6 ≤ d.toNat := by
  revert d; decide

/-- The illegal opcodes of the default numbering are the high bytes from 0xA8. -/
theorem default_illegalOpcode_iff (hi lo : Byte) :
    decode Config.default hi lo = .error (.illegalOpcode hi) ↔ 0xA8 ≤ hi.toNat := by
  rw [decode_eq_illegalOpcode_iff Config.default_wf, default_opOf_eq_none_iff, highByte_toNat hi]
  have hd := (destField hi).isLt
  omega

/-- The illegal conditions of the default numbering are the codes 6 and 7 under JMP (12) and JMPI (18). -/
theorem default_illegalCondition_iff (hi lo : Byte) :
    decode Config.default hi lo = .error (.illegalCondition (destField hi)) ↔
      hi = 0x66 ∨ hi = 0x67 ∨ hi = 0x96 ∨ hi = 0x97 := by
  have hjmp : Config.default.opNumber .jmp = 12 := rfl
  have hjmpi : Config.default.opNumber .jmpi = 18 := rfl
  have hd := (destField hi).isLt
  rw [decode_eq_illegalCondition_iff Config.default_wf, default_condOf_eq_none_iff, hjmp, hjmpi]
  simp only [← BitVec.toNat_inj, highByte_toNat hi, BitVec.reduceToNat]
  omega

/-! ### The step (R170 to R172) -/

/-- A machine that is not halted ends in the fault of the error its word decodes to. -/
theorem step_of_decode_error {s : State} {e : DecodeError} (hrun : s.halted = false)
    (hdec : decode s.cfg s.fetchWord.hi s.fetchWord.lo = .error e) : step s = .fault (faultOf e) := by
  simp [step, hrun, hdec, raise]

/-- Settles O4: the two kinds under every well-formed numbering, their high bytes under the default one, and the fault of
the step. -/
theorem illegalWordsAreExactlyTwoKinds : Obligations.IllegalWordsAreExactlyTwoKinds := by
  refine ⟨fun c hi lo hwf => ⟨?opcode, ?condition, ?noThird⟩,
    fun hi lo => ⟨default_illegalOpcode_iff hi lo, default_illegalCondition_iff hi lo⟩,
    fun s e => step_of_decode_error⟩
  case opcode => rw [decode_eq_illegalOpcode_iff hwf, opOf_eq_none_iff]
  case condition => rw [decode_eq_illegalCondition_iff hwf, condOf_eq_none_iff]
  case noThird =>
    intro e herr
    exact ((decode_eq_error_iff hwf hi lo e).mp herr).imp And.left And.left

end Sys2Proof.Claims
end

section
/-! One step's outcome (R103), the values of an R-format word's operands (R94), and the flags of every instruction, computed
from its accumulator (R99 to R101). -/

namespace Sys2Proof.Claims

open Sys2Proof Sys2Proof.Machine

/-! ### The outcomes of a step (R103) -/

/-- No instruction faults or is refused. -/
theorem exec_isNext (i : Instr) (s : State) : ∃ t, exec i s = .next t := by
  obtain ⟨u, out, a, b, -, he⟩ := exec_eq_finish i s
  exact ⟨_, he.trans (finish_eq out a b u)⟩

/-- Settles O17: by `halted`, then by what the fetched word decodes to. -/
theorem stepHasOneOfFourOutcomes : Obligations.StepHasOneOfFourOutcomes := by
  intro s
  cases hrun : s.halted with
  | true => exact .inl ⟨rfl, step_of_halted hrun⟩
  | false =>
    cases hdec : decode s.cfg s.fetchWord.hi s.fetchWord.lo with
    | ok i =>
      obtain ⟨t, ht⟩ := exec_isNext i s.fetchWord.after.advancePc
      exact .inr (.inl ⟨rfl, i, t, rfl, (step_of_decode hrun hdec).trans ht⟩)
    | error e =>
      have hfault : step s = .fault (faultOf e) := step_of_decode_error hrun hdec
      cases e with
      | illegalOpcode hi => exact .inr (.inr (.inl ⟨rfl, hi, rfl, hfault⟩))
      | illegalCondition d => exact .inr (.inr (.inr ⟨rfl, d, rfl, hfault⟩))

/-! ### The operand fields of a low byte (R94) -/

/-- `lo[6:4]` as a number. -/
theorem regAField_toNat (lo : Byte) : (regAField lo).toNat = lo.toNat / 16 % 8 := by
  simp [regAField, Nat.shiftRight_eq_div_pow]

/-- `lo[3:0]` as a number. -/
theorem bField_toNat (lo : Byte) : (bField lo).toNat = lo.toNat % 16 := by
  simp [bField]

/-- With `sel` 0, operand B is the register that the low three bits name. -/
theorem decodeB_of_selField_false {lo : Byte} (h : selField lo = false) :
    decodeB lo = .reg (BitVec.ofNat 3 (lo.toNat % 16 % 8)) := by
  have hreg : (bField lo).setWidth 3 = BitVec.ofNat 3 (lo.toNat % 16 % 8) := by
    apply BitVec.eq_of_toNat_eq
    simp [bField_toNat]
  simp [decodeB, h, hreg]

/-- With `sel` 1, the value of operand B is `sext_8` of the 4-bit field. -/
theorem operandB_decodeB_of_selField (s : State) {lo : Byte} (h : selField lo = true) :
    s.operandB (decodeB lo) = sext8 (bField lo) := by
  rw [decodeB, if_pos h]
  rfl

/-- Sign extension from 4 to 8 bits adds 240 to a field whose bit 3 is set. -/
theorem sext8_toNat (f : BitVec 4) : (sext8 f).toNat = if f.toNat < 8 then f.toNat else f.toNat + 240 := by
  revert f; decide

/-- Settles O56: each field as a number; the selector tells the two readings of operand B apart. -/
theorem operandFieldsGiveValues : Obligations.OperandFieldsGiveValues := by
  intro s lo
  have hsel : selField lo = decide (128 ≤ lo.toNat) := byte_bit7 lo
  refine ⟨hsel, regAField_toNat lo, fun hlt => ?register, fun hle => ?literal⟩
  case register =>
    have hclear : selField lo = false := by simpa [hsel] using hlt
    rw [decodeB_of_selField_false hclear, State.operandB]
  case literal =>
    have hset : selField lo = true := by simpa [hsel] using hle
    rw [operandB_decodeB_of_selField s hset, sext8_toNat, bField_toNat]

/-! ### The flags of the accumulator (R99, R101) -/

/-- R99's flags on bit vectors are R99's flags on numbers. -/
theorem flagsOf_eq_flagRule (out : Acc) (a b : Byte) : flagsOf out a b = flagRule out.toNat (neg a) (neg b) :=
  flagsOf_eq out a b

/-- An instruction that ends with the flags of `out`, `a` and `b` sets R101's flags, if these are its accumulator on
numbers and the signs of its operand values. -/
theorem exec_flags_of_finish {i : Instr} {s u : State} {out : Acc} {a b : Byte}
    (hexec : exec i s = finish out a b u) (hout : out.toNat = accumulator i s) (ha : a = valueA i s)
    (hb : neg b = bflagNeg i s) :
    ∃ t, exec i s = .next t ∧ t.flags = flagRule (accumulator i s) (neg (valueA i s)) (bflagNeg i s) := by
  refine ⟨_, hexec, ?_⟩
  rw [State.setFlags_flags, flagsOf_eq_flagRule, hout, ha, hb]

/-- The sign of the complement of a byte is the opposite sign. -/
theorem neg_not (b : Byte) : neg (~~~b) = !neg b := by
  have hb := b.isLt
  rw [neg, neg, not_toNat, ← decide_not, decide_eq_decide]
  omega

/-- The sign of `bflag` in the subtract group (R98). -/
theorem neg_subBflag (p : OvfBSource) (b : Byte) :
    neg (subBflag p b) = if p == .inverted then !neg b else neg b := by
  cases p with
  | inverted => exact neg_not b
  | raw => rfl

/-- NAND's result as a number (R121). -/
theorem nand_toNat (a b : Byte) : (~~~(a &&& b)).toNat = 255 - (a.toNat &&& b.toNat) := by
  rw [not_toNat, BitVec.toNat_and]

/-- Settles O21: each group of opcodes has its own accumulator, whose value as a number is that group's law; the subtract
group alone has a `bflag` other than `b`. -/
theorem everyInstructionSetsFlagsFromAccumulator : Obligations.EveryInstructionSetsFlagsFromAccumulator := by
  intro i s
  cases i with
  | add | addc | jmp | jeq | jgt | jge | jgts | jges | st =>
    exact exec_flags_of_finish rfl (adder_toNat _ _ _) rfl rfl
  | sub | subc | cmp | cmpc =>
    exact exec_flags_of_finish rfl (subtracter_toNat _ _ _) rfl (neg_subBflag _ _)
  | xor | or | and => exact exec_flags_of_finish rfl (logicOut_toNat _ _) rfl rfl
  | nand =>
    exact exec_flags_of_finish rfl ((logicOut_toNat _ _).trans (congrArg (· + _) (nand_toNat _ _))) rfl rfl
  | shr | shrc => exact exec_flags_of_finish rfl (shifterOut_toNat _ _ _ _) rfl rfl
  | sti => exact exec_flags_of_finish rfl (BitVec.toNat_setWidth_of_le (by decide)) rfl rfl
  | ld | rand | halt | nop | jmpi | jeqi | jgti | jgei | jgtsi | jgesi | imm =>
    exact exec_flags_of_finish rfl rfl rfl rfl

/-! ### Non-ALU opcodes (R100) -/

/-- A non-ALU instruction has no operand values and the accumulator 0 (R96, R101). -/
theorem nonAlu_values {i : Instr} (h : nonAlu i = true) (s : State) :
    accumulator i s = 0 ∧ valueA i s = 0 ∧ bflagNeg i s = false := by
  cases i with
  | ld | rand | halt | nop | jmpi | jeqi | jgti | jgei | jgtsi | jgesi | imm => exact ⟨rfl, rfl, rfl⟩
  | _ => cases h

/-- Settles O22: R99's flags of the accumulator 0 and of no operands. -/
theorem nonAluInstructionsLeaveZeroFlags : Obligations.NonAluInstructionsLeaveZeroFlags := by
  intro i s h
  obtain ⟨hout, ha, hb⟩ := nonAlu_values h s
  obtain ⟨t, hexec, hflags⟩ := everyInstructionSetsFlagsFromAccumulator i s
  refine ⟨t, hexec, ?_⟩
  rw [hflags, hout, ha, hb]
  rfl

end Sys2Proof.Claims
end

section
/-! ADD, ADDC, SUB, SUBC, CMP, CMPC (R110 to R117): the two words of the source form, and what the three shared meanings
`addInto`, `subInto` and `compareFlags` do for either carry-in. The plain forms are those with the carry-in fixed. -/

namespace Sys2Proof.Claims

open Sys2Proof Sys2Proof.Machine

/-! ### Source statements of R-format instructions (R76, R77) -/

/-- Operand B's token is read as operand B's record. -/
@[simp] theorem operandOf_tokenB (b : OperandB) : operandOf (tokenB b) = .ok (operandB b) := by
  cases b <;> rfl

/-- A register's token is read as the register. -/
@[simp] theorem operandOf_reg (r : RegNum) : operandOf (.reg r) = .ok (.reg r) := rfl

/-- A record of registers and of an operand B names no label. -/
theorem resolveRecord_rfmt (labels : List (Ident × Nat)) (n : BitVec 5) (d a : RegNum) (b : OperandB) :
    resolveRecord labels (.rfmt n (.reg d) (.reg a) (operandB b)) = .ok (.rfmt n (.reg d) (.reg a) (operandB b)) := by
  cases b <;> rfl

/-- Pass 2 packs an R-format record with a register destination, whatever the labels (R51, R86). -/
theorem recordImage_rfmt {c : Config} (labels : List (Ident × Nat)) {n : BitVec 5} (d a : RegNum) {b : OperandB}
    (hn : n ≠ c.opNumber .jmp) (hb : b.wf = true) :
    recordImage c labels (.rfmt n (.reg d) (.reg a) (operandB b)) =
      .ok (wordBytes c (packHi n d) (packOperands a b)) := by
  have henc := encodeRecord_rfmt a (rDestinationOk_reg d hn) hb
  simp [recordImage, resolveRecord_rfmt, henc, Operand.dstBits]

/-- The word of an R-format opcode is decoded by that format. -/
theorem decode_packHi {c : Config} (hwf : c.wf = true) {o : OpName} (himm : o.isImmediate = false) (d : BitVec 3)
    (lo : Byte) : decode c (packHi (c.opNumber o) d) lo = decodeR c o (packHi (c.opNumber o) d) lo := by
  rw [decode_of_opNumber hwf (opcodeField_packHi _ _), himm]
  rfl

/-- A statement whose record is R-format with a register destination assembles to that record's word, and the word
decodes to what the opcode's R-format decode makes of it. -/
theorem writtenAs_of_recordOf {op : Ident} {args : List Token} {xs : List Operand} {o : OpName} {d a : RegNum}
    {b : OperandB} {i : Instr} (hargs : operandsOf args = .ok xs)
    (hrec : recordOf Config.default op xs =
      .ok (.rfmt (Config.default.opNumber o) (.reg d) (.reg a) (operandB b)))
    (himm : o.isImmediate = false) (hjmp : o ≠ .jmp) (hb : b.wf = true)
    (hdec : decodeR Config.default o (packHi (Config.default.opNumber o) d) (packOperands a b) = .ok i) :
    WrittenAs op args i (packHi (Config.default.opNumber o) d) (packOperands a b) := by
  have hnum : Config.default.opNumber o ≠ Config.default.opNumber .jmp := fun e =>
    hjmp (Config.opNumber_injective Config.default_wf e)
  constructor
  · simp only [assembleStatement, hargs, hrec]
    exact recordImage_rfmt [] d a hnum hb
  · rw [decode_packHi Config.default_wf himm, hdec]

/-- The tokens of a three-operand statement are read as the record's operands. -/
theorem operandsOf_three (d a : RegNum) (b : OperandB) :
    operandsOf [.reg d, .reg a, tokenB b] = .ok [.reg d, .reg a, operandB b] := by
  simp [operandsOf]

/-- A three-operand mnemonic has the R-format record of its opcode (R76). -/
theorem recordOf_three (c : Config) {op : Ident} {o : OpName} (hop : lookup threeOperandOps op = some o)
    (x y z : Operand) : recordOf c op [x, y, z] = .ok (.rfmt (c.opNumber o) x y z) := by
  simp [recordOf, hop]

/-- The source form of each three-operand instruction (R76): `mk` is the constructor that the opcode's R-format decode
applies to its three fields. -/
theorem writtenAs_three {op : Ident} {o : OpName} {mk : RegNum → RegNum → OperandB → Instr}
    (hop : lookup threeOperandOps op = some o) (himm : o.isImmediate = false) (hjmp : o ≠ .jmp)
    (hdec : ∀ hi lo, decodeR Config.default o hi lo = .ok (mk (destField hi) (regAField lo) (decodeB lo)))
    (d a : RegNum) {b : OperandB} (hb : b.wf = true) :
    WrittenAs op [.reg d, .reg a, tokenB b] (mk d a b) (packHi (Config.default.opNumber o) d) (packOperands a b) := by
  refine writtenAs_of_recordOf (operandsOf_three d a b) (recordOf_three _ hop _ _ _) himm hjmp hb ?_
  rw [hdec, destField_packHi, regAField_packOperands, decodeB_packOperands a hb]

/-- `mov rD rS` is `add rD rS 0` (R77). -/
theorem writtenAs_mov (d a : RegNum) :
    WrittenAs "mov".toList [.reg d, .reg a] (.add d a (.lit 0)) (packHi 0 d) (packOperands a (.lit 0)) := by
  have hb : (OperandB.lit 0).wf = true := rfl
  refine writtenAs_of_recordOf (o := .add) (xs := [.reg d, .reg a]) rfl rfl rfl nofun hb ?_
  rw [decodeR, destField_packHi, regAField_packOperands, decodeB_packOperands a hb]

/-- R-format decode of CMP reads no destination (R66). -/
theorem decodeR_cmp (c : Config) (hi : Byte) (a : RegNum) {b : OperandB} (hb : b.wf = true) :
    decodeR c .cmp hi (packOperands a b) = .ok (.cmp a b) := by
  rw [decodeR, regAField_packOperands, decodeB_packOperands a hb]

/-- The source form of CMP has no destination, and its record's is register 0 (R75). -/
theorem writtenAs_cmp (a : RegNum) {b : OperandB} (hb : b.wf = true) :
    WrittenAs "cmp".toList [.reg a, tokenB b] (.cmp a b) (packHi 4 0) (packOperands a b) := by
  have hargs : operandsOf [.reg a, tokenB b] = .ok [.reg a, operandB b] := by simp [operandsOf]
  exact writtenAs_of_recordOf (o := .cmp) hargs rfl rfl nofun hb (decodeR_cmp _ _ a hb)

/-! ### What the shared endings leave alone -/

/-- An opcode that ends with a register write changes that register and the flags, and nothing else. -/
theorem finishInto_frame (d : RegNum) (out : Acc) (a b : Byte) (s : State) :
    ∃ t, finishInto d out a b s = .next t ∧ t.reg d = lowByte out ∧ t.flags = flagsOf out a b ∧
      OnlyRegisterAndFlags d s t := by
  have h := finishInto_eq d out a b s
  obtain ⟨hreg, hkeep, hflags, hpc, hhalted, hmem, hdev, hcfg, hdraws⟩ := finishInto_spec h
  exact ⟨_, h, hreg, hflags, hkeep, hpc, hhalted, fun _ => by rw [hmem], hdev, hcfg, hdraws⟩

/-- Writing the flags changes nothing else. -/
theorem setFlags_onlyFlags (s : State) (f : Flags) : OnlyFlags s (s.setFlags f) :=
  ⟨fun _ => rfl, rfl, rfl, fun _ => rfl, rfl, rfl, rfl⟩

/-! ### The flags on numbers (R98, R99) -/

/-- R99's flags of an accumulator, by its low byte `r`. -/
theorem flagRule_of_low {n : Nat} {r : Byte} (hr : r.toNat = n % 256) (x y : Bool) :
    flagRule n x y =
      { carry := decide (256 ≤ n), sign := neg r, zero := decide (r.toNat = 0), overflow := x == y && x != neg r } := by
  rw [flagRule, neg, hr]

/-- The signed reading of a byte, by its sign (R8). -/
theorem toInt_by_sign (v : Byte) :
    (v.toNat < 128 ∧ v.toInt = v.toNat) ∨ (128 ≤ v.toNat ∧ v.toInt = v.toNat - 256) := by
  rw [byte_toInt]
  split <;> omega

/-- The signed range of a byte, as a proposition. -/
theorem outOfRange_iff (v : Int) : outOfRange v = true ↔ v < -128 ∨ 127 < v := by
  simp [outOfRange]

/-- The formula of R98 on a sum is its signed overflow (R110). -/
theorem overflow_add {a b r : Byte} (hr : r.toNat = (a.toNat + b.toNat) % 256) :
    (neg a == neg b && neg a != neg r) = outOfRange (a.toInt + b.toInt) := by
  have ha := toInt_by_sign a
  have hb := toInt_by_sign b
  rw [Bool.eq_iff_iff, outOfRange_iff]
  simp only [neg, Bool.and_eq_true, beq_iff_eq, bne_iff_ne, ne_eq, decide_eq_decide]
  omega

/-- The formula of R98 on a difference, with the complement of `b` for `b`, is its signed overflow (R112). -/
theorem overflow_sub {a b r : Byte} (hr : r.toNat = (a.toNat + 256 - b.toNat) % 256) :
    (neg a != neg b && neg a != neg r) = outOfRange (a.toInt - b.toInt) := by
  have ha := toInt_by_sign a
  have hb := toInt_by_sign b
  rw [Bool.eq_iff_iff, outOfRange_iff]
  simp only [neg, Bool.and_eq_true, bne_iff_ne, ne_eq, decide_eq_decide]
  omega

/-- A difference is zero mod 256 only of equal bytes (R112). -/
theorem difference_eq_zero_iff {a b r : Byte} (hr : r.toNat = (a.toNat + 256 - b.toNat) % 256) :
    r.toNat = 0 ↔ a = b := by
  have ha := a.isLt
  have hb := b.isLt
  rw [← BitVec.toNat_inj, hr]
  omega

/-- After a difference with its signed overflow in `V`, `V = S` is the signed order (R114). -/
theorem overflow_eq_sign_iff {a b r : Byte} (hr : r.toNat = (a.toNat + 256 - b.toNat) % 256) :
    outOfRange (a.toInt - b.toInt) = neg r ↔ b.toInt ≤ a.toInt := by
  have ha := toInt_by_sign a
  have hb := toInt_by_sign b
  rw [Bool.eq_iff_iff, outOfRange_iff, neg, decide_eq_true_eq]
  omega

/-! ### Additions (R110, R111) -/

/-- An addition with carry-in `cin`, on numbers. -/
theorem addInto_spec (d ra : RegNum) (b : OperandB) (cin : Bool) (s : State) :
    ∃ t, addInto d ra b cin s = .next t ∧
      (t.reg d).toNat = ((s.reg ra).toNat + (s.operandB b).toNat + cin.toNat) % 256 ∧
      t.flags = flagRule ((s.reg ra).toNat + (s.operandB b).toNat + cin.toNat) (neg (s.reg ra)) (neg (s.operandB b)) ∧
      OnlyRegisterAndFlags d s t := by
  obtain ⟨t, ht, hreg, hflags, hframe⟩ := finishInto_frame d (adder (s.reg ra) (s.operandB b) cin) _ _ s
  refine ⟨t, ht, ?result, ?flags, hframe⟩
  case result => rw [hreg, lowByte_toNat, adder_toNat]
  case flags => rw [hflags, flagsOf_eq_flagRule, adder_toNat]

/-- ADD is the addition without a carry-in (R110). -/
theorem exec_add (d a : RegNum) (b : OperandB) (s : State) : exec (.add d a b) s = addInto d a b false s := rfl

/-- ADDC's carry-in is the old carry flag (R111). -/
theorem exec_addc (d a : RegNum) (b : OperandB) (s : State) :
    exec (.addc d a b) s = addInto d a b s.flags.carry s := rfl

/-- Settles O30: without a carry-in the flags of the sum are those of its low byte, and `V` is its signed overflow. -/
theorem addWritesSum : Obligations.AddWritesSum := by
  intro s d a b
  refine ⟨?effect, fun hb => writtenAs_three (o := .add) rfl rfl nofun (fun _ _ => rfl) d a hb, writtenAs_mov d a⟩
  case effect =>
    obtain ⟨t, ht, hreg, hflags, hframe⟩ := addInto_spec d a b false s
    have hsum : (t.reg d).toNat = ((s.reg a).toNat + (s.operandB b).toNat) % 256 := hreg
    refine ⟨t, (exec_add d a b s).trans ht, hsum, ?_, hframe⟩
    rw [hflags, flagRule_of_low hreg, overflow_add hsum]
    rfl

/-- Settles O31: an addition whose carry-in is the old carry flag. -/
theorem addcWritesSumWithCarry : Obligations.AddcWritesSumWithCarry := by
  intro s d a b
  exact ⟨exec_addc d a b s ▸ addInto_spec d a b s.flags.carry s,
    fun hb => writtenAs_three (o := .addc) rfl rfl nofun (fun _ _ => rfl) d a hb⟩

/-! ### Subtractions (R112, R113, R116, R117) -/

/-- Bit 8 of the accumulator of a subtraction says that there was no borrow (R113). -/
theorem no_borrow_iff (a b : Byte) (cin : Bool) :
    256 ≤ a.toNat + (255 - b.toNat) + cin.toNat ↔ b.toNat + (1 - cin.toNat) ≤ a.toNat := by
  have hb := b.isLt
  have hc := cin.toNat_le
  omega

/-- `a` and `bflag` have one sign: with `OVF_B_SOURCE = inverted`, where `bflag` is the complement of `b`, exactly if
`a` and `b` have different ones (R98). -/
theorem same_sign_subBflag (p : OvfBSource) (a b : Byte) :
    (neg a == neg (subBflag p b)) = if p = .inverted then neg a != neg b else neg a == neg b := by
  rw [neg_subBflag]
  cases p with
  | inverted => cases neg a <;> cases neg b <;> rfl
  | raw => rfl

/-- A subtraction with carry-in `cin` in place of the fixed 1, on numbers. -/
theorem subInto_spec (d ra : RegNum) (b : OperandB) (cin : Bool) (s : State) :
    ∃ t, subInto d ra b cin s = .next t ∧
      (t.reg d).toNat = ((s.reg ra).toNat + 255 - (s.operandB b).toNat + cin.toNat) % 256 ∧
      t.flags.carry = decide ((s.operandB b).toNat + (1 - cin.toNat) ≤ (s.reg ra).toNat) ∧
      t.flags.sign = neg (t.reg d) ∧
      t.flags.zero = decide ((t.reg d).toNat = 0) ∧
      t.flags.overflow =
        ((if s.cfg.ovfBSource = .inverted then neg (s.reg ra) != neg (s.operandB b)
          else neg (s.reg ra) == neg (s.operandB b)) && neg (s.reg ra) != neg (t.reg d)) ∧
      OnlyRegisterAndFlags d s t := by
  obtain ⟨t, ht, hreg, hflags, hframe⟩ := finishInto_frame d (subtracter (s.reg ra) (s.operandB b) cin) (s.reg ra)
    (subBflag s.cfg.ovfBSource (s.operandB b)) s
  have hlow : (t.reg d).toNat = ((s.reg ra).toNat + (255 - (s.operandB b).toNat) + cin.toNat) % 256 := by
    rw [hreg, lowByte_toNat, subtracter_toNat]
  rw [flagsOf_eq_flagRule, subtracter_toNat, flagRule_of_low hlow, same_sign_subBflag] at hflags
  refine ⟨t, ht, ?result, ?carry, by rw [hflags], by rw [hflags], by rw [hflags], hframe⟩
  case result =>
    have hb := (s.operandB b).isLt
    omega
  case carry => simp only [hflags, no_borrow_iff]

/-- SUB's carry-in is the fixed 1 (R112). -/
theorem exec_sub (d a : RegNum) (b : OperandB) (s : State) : exec (.sub d a b) s = subInto d a b true s := rfl

/-- SUBC's carry-in is the old carry flag (R113). -/
theorem exec_subc (d a : RegNum) (b : OperandB) (s : State) :
    exec (.subc d a b) s = subInto d a b s.flags.carry s := rfl

/-- Settles O32: with carry-in 1 the low byte is the difference, so that it is zero of equal bytes only, and under
`inverted` `V` is its signed overflow. -/
theorem subWritesDifference : Obligations.SubWritesDifference := by
  intro s d a b
  refine ⟨?_, fun hb => writtenAs_three (o := .sub) rfl rfl nofun (fun _ _ => rfl) d a hb⟩
  obtain ⟨t, ht, hreg, hcarry, hsign, hzero, hover, hframe⟩ := subInto_spec d a b true s
  have hdiff : (t.reg d).toNat = ((s.reg a).toNat + 256 - (s.operandB b).toNat) % 256 := by
    have hb := (s.operandB b).isLt
    rw [hreg, Bool.toNat_true]
    omega
  refine ⟨t, (exec_sub d a b s).trans ht, hdiff, hcarry, hsign, ?zero, fun hsrc => ?inverted, fun hsrc => ?raw, hframe⟩
  case zero => rw [hzero, decide_eq_decide.mpr (difference_eq_zero_iff hdiff)]
  case inverted => rw [hover, if_pos hsrc, overflow_sub hdiff]
  case raw => rw [hover, if_neg (by simp [hsrc])]

/-- Settles O33: a subtraction whose carry-in is the old carry flag. -/
theorem subcWritesDifferenceWithBorrow : Obligations.SubcWritesDifferenceWithBorrow := by
  intro s d a b
  exact ⟨exec_subc d a b s ▸ subInto_spec d a b s.flags.carry s,
    fun hb => writtenAs_three (o := .subc) rfl rfl nofun (fun _ _ => rfl) d a hb⟩

/-! ### Comparisons (R114, R115) -/

/-- A comparison changes only the flags, to those of the subtraction, whatever register that writes. -/
theorem compareFlags_spec (ra : RegNum) (b : OperandB) (cin : Bool) (s : State) :
    ∃ t, compareFlags ra b cin s = .next t ∧ OnlyFlags s t ∧
      ∀ (d : RegNum) (u : State), subInto d ra b cin s = .next u → t.flags = u.flags := by
  refine ⟨_, finish_eq _ _ _ s, setFlags_onlyFlags s _, fun d u hu => ?_⟩
  obtain ⟨-, -, hflags, -⟩ := finishInto_spec hu
  exact hflags.symm

/-- CMP is the comparison whose carry-in is the fixed 1 (R114). -/
theorem exec_cmp (a : RegNum) (b : OperandB) (s : State) : exec (.cmp a b) s = compareFlags a b true s := rfl

/-- CMPC is the comparison whose carry-in is the old carry flag, whatever its destination (R115). -/
theorem exec_cmpc (d a : RegNum) (b : OperandB) (s : State) :
    exec (.cmpc d a b) s = compareFlags a b s.flags.carry s := rfl

/-- After SUB the conditions are the orders of `a` and `b`; the signed ones with `OVF_B_SOURCE = inverted` (R114, R144). -/
theorem condHolds_after_sub {d a : RegNum} {b : OperandB} {s u : State} (hu : exec (.sub d a b) s = .next u) :
    condHolds .jeq u.flags = decide (s.reg a = s.operandB b) ∧
    condHolds .jge u.flags = decide ((s.operandB b).toNat ≤ (s.reg a).toNat) ∧
    condHolds .jgt u.flags = decide ((s.operandB b).toNat < (s.reg a).toNat) ∧
    (s.cfg.ovfBSource = .inverted →
      condHolds .jges u.flags = decide ((s.operandB b).toInt ≤ (s.reg a).toInt) ∧
      condHolds .jgts u.flags = decide ((s.operandB b).toInt < (s.reg a).toInt)) := by
  obtain ⟨⟨t, ht, hdiff, hcarry, hsign, hzero, hover, -⟩, -⟩ := subWritesDifference s d a b
  obtain rfl : u = t := Host.Outcome.next.inj (hu.symm.trans ht)
  refine ⟨hzero, hcarry, ?jgt, fun hsrc => ?signed⟩
  case jgt =>
    rw [condHolds, hcarry, hzero, Bool.eq_iff_iff]
    simp only [Bool.and_eq_true, Bool.not_eq_true', decide_eq_true_eq, decide_eq_false_iff_not, ← BitVec.toNat_inj]
    omega
  case signed =>
    have hjges : condHolds .jges u.flags = decide ((s.operandB b).toInt ≤ (s.reg a).toInt) := by
      rw [condHolds, hover hsrc, hsign, Bool.eq_iff_iff, beq_iff_eq, overflow_eq_sign_iff hdiff, decide_eq_true_eq]
    have hjgts : condHolds .jgts u.flags = (!u.flags.zero && condHolds .jges u.flags) := rfl
    refine ⟨hjges, ?_⟩
    rw [hjgts, hjges, hzero, Bool.eq_iff_iff]
    simp only [Bool.and_eq_true, Bool.not_eq_true', decide_eq_true_eq, decide_eq_false_iff_not, ← BitVec.toInt_inj]
    omega

/-- Settles O34: the flags are SUB's, and so the conditions are what they are after SUB. -/
theorem cmpSetsFlagsOfDifference : Obligations.CmpSetsFlagsOfDifference := by
  intro s a b
  refine ⟨?effect, fun hb => ⟨writtenAs_cmp a hb, fun d => ?anyDestination⟩⟩
  case effect =>
    obtain ⟨t, ht, hframe, hflags⟩ := compareFlags_spec a b true s
    obtain ⟨u, hu⟩ := exec_isNext (.sub 0 a b) s
    refine ⟨t, (exec_cmp a b s).trans ht, hframe, hflags, ?_⟩
    rw [hflags 0 u hu]
    exact condHolds_after_sub hu
  case anyDestination =>
    exact (decode_packHi (o := .cmp) Config.default_wf rfl d _).trans (decodeR_cmp _ _ a hb)

/-- Settles O35: the flags are SUBC's, and its carry is that of every subtraction. -/
theorem cmpcSetsFlagsOfDifferenceWithBorrow : Obligations.CmpcSetsFlagsOfDifferenceWithBorrow := by
  intro s d a b
  refine ⟨?_, fun hb => writtenAs_three (o := .cmpc) rfl rfl nofun (fun _ _ => rfl) d a hb⟩
  obtain ⟨t, ht, hframe, hflags⟩ := compareFlags_spec a b s.flags.carry s
  obtain ⟨u, hu, -, hcarry, -⟩ := subInto_spec d a b s.flags.carry s
  exact ⟨t, (exec_cmpc d a b s).trans ht, hframe, hflags, by rw [hflags d u hu, hcarry]⟩

end Sys2Proof.Claims
end

section
/-! XOR, NAND, OR, AND (R120 to R124): what the shared ending `logicInto` does, and R124's table of `V`, which is the
one formula of R98 read off the sign bits. -/

namespace Sys2Proof.Claims

open Sys2Proof Sys2Proof.Machine

/-! ### The sign of a bitwise result -/

/-- The sign of a byte is its most significant bit (R8). -/
theorem neg_eq_msb (v : Byte) : neg v = v.msb := (BitVec.msb_eq_decide v).symm

/-- The sign of an XOR is the XOR of the signs. -/
theorem neg_xor (a b : Byte) : neg (a ^^^ b) = (neg a ^^ neg b) := by
  simp only [neg_eq_msb, BitVec.msb_xor]

/-- The sign of an OR is the OR of the signs. -/
theorem neg_or (a b : Byte) : neg (a ||| b) = (neg a || neg b) := by
  simp only [neg_eq_msb, BitVec.msb_or]

/-- The sign of an AND is the AND of the signs. -/
theorem neg_and (a b : Byte) : neg (a &&& b) = (neg a && neg b) := by
  simp only [neg_eq_msb, BitVec.msb_and]

/-! ### R124's table: the formula of R98 on a bitwise result -/

/-- XOR of equal signs is nonnegative, which differs from `a` if both are negative. -/
theorem overflow_xor (a b : Byte) : (neg a == neg b && neg a != neg (a ^^^ b)) = (neg a && neg b) := by
  rw [neg_xor]
  cases neg a <;> cases neg b <;> rfl

/-- NAND of equal signs has the opposite sign. -/
theorem overflow_nand (a b : Byte) : (neg a == neg b && neg a != neg (~~~(a &&& b))) = (neg a == neg b) := by
  rw [neg_not, neg_and]
  cases neg a <;> cases neg b <;> rfl

/-- OR of equal signs keeps the sign. -/
theorem overflow_or (a b : Byte) : (neg a == neg b && neg a != neg (a ||| b)) = false := by
  rw [neg_or]
  cases neg a <;> cases neg b <;> rfl

/-- AND of equal signs keeps the sign. -/
theorem overflow_and (a b : Byte) : (neg a == neg b && neg a != neg (a &&& b)) = false := by
  rw [neg_and]
  cases neg a <;> cases neg b <;> rfl

/-! ### The four instructions -/

/-- Bit 8 of a logic accumulator is the parameter `LOGIC_BIT8` (R124). -/
theorem logicOut_carry (bit8 : Bool) (r : Byte) : decide (256 ≤ (logicOut bit8 r).toNat) = bit8 := by
  have hr := r.isLt
  rw [logicOut_toNat]
  cases bit8 with
  | false => exact decide_eq_false (by simpa using hr)
  | true => exact decide_eq_true (by simp)

/-- A logic instruction writes `result`, takes its carry flag from `LOGIC_BIT8` and its other flags from the result and
the signs of the operands, and changes nothing else (R124); `v` is what the formula of R98 comes to. -/
theorem logicInto_spec (d : RegNum) {result a b : Byte} {v : Bool} (s : State)
    (hv : (neg a == neg b && neg a != neg result) = v) :
    ∃ t, logicInto d result a b s = .next t ∧ t.reg d = result ∧
      flagBits t.flags = (s.cfg.logicBit8, neg result, decide (result = 0), v) ∧ OnlyRegisterAndFlags d s t := by
  obtain ⟨t, ht, hreg, hflags, hframe⟩ := finishInto_frame d (logicOut s.cfg.logicBit8 result) a b s
  have hlow : result.toNat = (logicOut s.cfg.logicBit8 result).toNat % 256 := by
    rw [← lowByte_toNat, lowByte_logicOut]
  have hzero : decide (result.toNat = 0) = decide (result = 0) :=
    decide_eq_decide.mpr (BitVec.toNat_inj (y := 0))
  rw [flagsOf_eq_flagRule, flagRule_of_low hlow, logicOut_carry, hzero, hv] at hflags
  exact ⟨t, ht, hreg.trans (lowByte_logicOut _ _), congrArg flagBits hflags, hframe⟩

/-- XOR is the shared ending on the bitwise exclusive or (R120). -/
theorem exec_xor (d a : RegNum) (b : OperandB) (s : State) :
    exec (.xor d a b) s = logicInto d (s.reg a ^^^ s.operandB b) (s.reg a) (s.operandB b) s := rfl

/-- NAND is the shared ending on the bitwise complement of the AND (R121). -/
theorem exec_nand (d a : RegNum) (b : OperandB) (s : State) :
    exec (.nand d a b) s = logicInto d (~~~(s.reg a &&& s.operandB b)) (s.reg a) (s.operandB b) s := rfl

/-- OR is the shared ending on the bitwise or (R122). -/
theorem exec_or (d a : RegNum) (b : OperandB) (s : State) :
    exec (.or d a b) s = logicInto d (s.reg a ||| s.operandB b) (s.reg a) (s.operandB b) s := rfl

/-- AND is the shared ending on the bitwise and (R123). -/
theorem exec_and (d a : RegNum) (b : OperandB) (s : State) :
    exec (.and d a b) s = logicInto d (s.reg a &&& s.operandB b) (s.reg a) (s.operandB b) s := rfl

/-- Settles O37: each of the four is the shared ending on its own bitwise result, on which the formula for `V` comes to
its row of R124's table. -/
theorem logicWritesBitwiseResult : Obligations.LogicWritesBitwiseResult := by
  intro s d a b
  refine ⟨fun i result v h => ?effect, fun hb => ⟨?xorForm, ?nandForm, ?orForm, ?andForm⟩⟩
  case effect =>
    rcases h with hxor | hnand | hor | hand
    · cases hxor
      exact exec_xor d a b s ▸ logicInto_spec d s (overflow_xor _ _)
    · cases hnand
      exact exec_nand d a b s ▸ logicInto_spec d s (overflow_nand _ _)
    · cases hor
      exact exec_or d a b s ▸ logicInto_spec d s (overflow_or _ _)
    · cases hand
      exact exec_and d a b s ▸ logicInto_spec d s (overflow_and _ _)
  case xorForm => exact writtenAs_three (o := .xor) rfl rfl nofun (fun _ _ => rfl) d a hb
  case nandForm => exact writtenAs_three (o := .nand) rfl rfl nofun (fun _ _ => rfl) d a hb
  case orForm => exact writtenAs_three (o := .or) rfl rfl nofun (fun _ _ => rfl) d a hb
  case andForm => exact writtenAs_three (o := .and) rfl rfl nofun (fun _ _ => rfl) d a hb

end Sys2Proof.Claims
end

section
/-! SHR and SHRC (R130 to R132): what the shared ending `shiftInto` does for either bit that enters at bit 7. SHR is the
shift whose entering bit is the fixed 0. -/

namespace Sys2Proof.Claims

open Sys2Proof Sys2Proof.Machine

/-! ### The shifted sum as a number -/

/-- The byte of a sum shifted right by one, with `top` at bit 7 (R130, R131). -/
def shiftedByte (sum : Nat) (top : Bool) : Nat := (if top then 128 else 0) + sum % 256 / 2

/-- Without an entering bit the shifted byte is seven bits of the sum (R130). -/
theorem shiftedByte_false (sum : Nat) : shiftedByte sum false = sum % 256 / 2 := Nat.zero_add _

/-- An entering bit stands above the seven bits that move down (R131). -/
theorem shiftedByte_true (sum : Nat) : shiftedByte sum true = 128 + sum % 256 / 2 := rfl

/-- The shifted sum is a byte. -/
theorem shiftedByte_lt (sum : Nat) (top : Bool) : shiftedByte sum top < 256 := by
  cases top with
  | false => rw [shiftedByte_false]; omega
  | true => rw [shiftedByte_true]; omega

/-- The sign of the shifted byte is the bit that entered (R132). -/
theorem sign_shiftedByte (sum : Nat) (top : Bool) : decide (128 ≤ shiftedByte sum top) = top := by
  cases top with
  | false => rw [shiftedByte_false, decide_eq_false_iff_not]; omega
  | true => rw [shiftedByte_true, decide_eq_true_iff]; omega

/-- A shifted byte is zero exactly if no bit enters and the sum has at most the bit that is shifted out (R132). -/
theorem zero_shiftedByte (sum : Nat) (top : Bool) :
    decide (shiftedByte sum top = 0) = (decide (sum % 256 ≤ 1) && !top) := by
  cases top with
  | false => rw [shiftedByte_false, Bool.not_false, Bool.and_true, decide_eq_decide]; omega
  | true => rw [shiftedByte_true, Bool.not_true, Bool.and_false, decide_eq_false_iff_not]; omega

/-- The shifter's accumulator is the shifted byte below the bit shifted out (R132). -/
theorem shifterOut_eq_shiftedByte {wide : ShrWide} {a b : Byte} {cin top : Bool}
    (htop : (cin || (wide == .kept && decide (256 ≤ a.toNat + b.toNat))) = top) :
    (shifterOut wide a b cin).toNat = 256 * ((a.toNat + b.toNat) % 2) + shiftedByte (a.toNat + b.toNat) top := by
  rw [shifterOut_toNat, htop, shiftedByte, Nat.add_assoc]

/-- R99's flags of a shift: `C` is the bit shifted out, `S` the bit that entered, and `Z` looks at the shifted byte alone
(R132). -/
theorem flagBits_of_shifted (sum : Nat) (top x y : Bool) :
    flagBits (flagRule (256 * (sum % 2) + shiftedByte sum top) x y) =
      (decide (sum % 2 = 1), top, decide (sum % 256 ≤ 1) && !top, x == y && x != top) := by
  have hlt := shiftedByte_lt sum top
  have hlow : (256 * (sum % 2) + shiftedByte sum top) % 256 = shiftedByte sum top := by omega
  have hcarry : 256 ≤ 256 * (sum % 2) + shiftedByte sum top ↔ sum % 2 = 1 := by omega
  simp only [flagBits, flagRule, hlow, hcarry, sign_shiftedByte, zero_shiftedByte]

/-! ### The two instructions -/

/-- A shift writes the sum shifted right by one, sets the flags of R132 and changes nothing else; `top` is the bit that
enters at bit 7, the carry-in or, if `SHR_WIDE` keeps it, bit 8 of the sum. -/
theorem shiftInto_spec (d ra : RegNum) (b : OperandB) {cin top : Bool} (s : State)
    (htop : (cin || (s.cfg.shrWide == .kept && decide (256 ≤ (s.reg ra).toNat + (s.operandB b).toNat))) = top) :
    ∃ t, shiftInto d ra b cin s = .next t ∧
      ((t.reg d).toNat = shiftedByte ((s.reg ra).toNat + (s.operandB b).toNat) top ∧
        flagBits t.flags =
          (decide (((s.reg ra).toNat + (s.operandB b).toNat) % 2 = 1), top,
            decide (((s.reg ra).toNat + (s.operandB b).toNat) % 256 ≤ 1) && !top,
            neg (s.reg ra) == neg (s.operandB b) && neg (s.reg ra) != top)) ∧
      OnlyRegisterAndFlags d s t := by
  obtain ⟨t, ht, hreg, hflags, hframe⟩ :=
    finishInto_frame d (shifterOut s.cfg.shrWide (s.reg ra) (s.operandB b) cin) (s.reg ra) (s.operandB b) s
  refine ⟨t, ht, ⟨?result, ?flags⟩, hframe⟩
  case result =>
    rw [hreg, lowByte_toNat, shifterOut_eq_shiftedByte htop, Nat.mul_add_mod,
      Nat.mod_eq_of_lt (shiftedByte_lt _ _)]
  case flags => rw [hflags, flagsOf_eq_flagRule, shifterOut_eq_shiftedByte htop, flagBits_of_shifted]

/-- SHR's carry-in is the fixed 0 (R130). -/
theorem exec_shr (d a : RegNum) (b : OperandB) (s : State) : exec (.shr d a b) s = shiftInto d a b false s := rfl

/-- SHRC's carry-in is the old carry flag (R131). -/
theorem exec_shrc (d a : RegNum) (b : OperandB) (s : State) :
    exec (.shrc d a b) s = shiftInto d a b s.flags.carry s := rfl

/-- Settles O38: a shift with carry-in 0, so that only bit 8 of the sum can enter at bit 7. -/
theorem shrShiftsSum : Obligations.ShrShiftsSum := by
  intro s d a b
  exact ⟨exec_shr d a b s ▸ shiftInto_spec d a b s (Bool.false_or _),
    fun hb => writtenAs_three (o := .shr) rfl rfl nofun (fun _ _ => rfl) d a hb⟩

/-- Settles O39: a shift whose carry-in is the old carry flag. -/
theorem shrcShiftsSumThroughCarry : Obligations.ShrcShiftsSumThroughCarry := by
  intro s d a b
  exact ⟨exec_shrc d a b s ▸ shiftInto_spec d a b s rfl,
    fun hb => writtenAs_three (o := .shrc) rfl rfl nofun (fun _ _ => rfl) d a hb⟩

end Sys2Proof.Claims
end

section
/-! JMP and JMPI (R140 to R142): the code of a word that is no condition, the one ending that both kinds of jump share, and
the records of the jump mnemonics. -/

namespace Sys2Proof.Claims

open Sys2Proof Sys2Proof.Machine

/-! ### Conditions and their codes (R142) -/

/-- Both jump opcodes refuse a code that is none of the six (R171). -/
theorem decode_of_condCode_ne {c : Config} (hwf : c.wf = true) {o : OpName} (ho : o = .jmp ∨ o = .jmpi) {d : BitVec 3}
    (hd : ∀ k, c.condCode k ≠ d) (lo : Byte) :
    decode c (packHi (c.opNumber o) d) lo = .error (.illegalCondition d) := by
  have h := decode_eq_illegalCondition_iff hwf (packHi (c.opNumber o) d) lo
  rw [opcodeField_packHi, destField_packHi] at h
  exact h.mpr ⟨ho.imp (congrArg c.opNumber) (congrArg c.opNumber), (condOf_eq_none_iff c d).mpr hd⟩

/-- Settles O40: the table of the conditions row by row, and the two jump opcodes on a code that is none of them. -/
theorem conditionsReadFlags : Obligations.ConditionsReadFlags := by
  refine ⟨fun f => ⟨rfl, Iff.rfl, ?jgt, Iff.rfl, ?jgts, beq_iff_eq⟩, fun c d lo hwf hd =>
    ⟨decode_of_condCode_ne hwf (.inl rfl) hd lo, decode_of_condCode_ne hwf (.inr rfl) hd lo⟩⟩
  case jgt => rw [condHolds, Bool.and_eq_true, Bool.not_eq_true']
  case jgts => rw [condHolds, Bool.and_eq_true, Bool.not_eq_true', beq_iff_eq]

/-! ### The effect of a jump (R140, R141) -/

/-- A jump reads its condition from the old flags, writes the flags of `out` whether or not it is taken, and changes
nothing else but the pc. -/
theorem finish_branch_spec (k : Cond) (target : Byte) (out : Acc) (a b : Byte) (s : State) :
    ∃ t, finish out a b (branch k target s) = .next t ∧ t.pc = (if condHolds k s.flags then target else s.pc) ∧
      t.flags = flagsOf out a b ∧ OnlyPcAndFlags s t := by
  rw [branch_spec]
  exact ⟨_, finish_eq _ _ _ _, rfl, rfl, fun _ => rfl, rfl, fun _ => rfl, rfl, rfl, rfl⟩

/-- The register jump of each condition is the one meaning of JMP (R140). -/
theorem exec_regJump (k : Cond) (a : RegNum) (b : OperandB) (s : State) :
    exec (regJump k a b) s = jumpRegister k a b s := by
  cases k <;> rfl

/-- The immediate jump of each condition is the one meaning of JMPI (R141). -/
theorem exec_immJump (k : Cond) (target : Byte) (s : State) : exec (immJump k target) s = jumpImmediate k target s := by
  cases k <;> rfl

/-- JMP on numbers: the target is the sum mod 256, the flags are those of the sum (R140). -/
theorem jumpRegister_spec (k : Cond) (a : RegNum) (b : OperandB) (s : State) :
    ∃ t, jumpRegister k a b s = .next t ∧
      t.pc.toNat = (if condHolds k s.flags then ((s.reg a).toNat + (s.operandB b).toNat) % 256 else s.pc.toNat) ∧
      t.flags = flagRule ((s.reg a).toNat + (s.operandB b).toNat) (neg (s.reg a)) (neg (s.operandB b)) ∧
      OnlyPcAndFlags s t := by
  have hsum : (adder (s.reg a) (s.operandB b) false).toNat = (s.reg a).toNat + (s.operandB b).toNat :=
    adder_toNat _ _ false
  obtain ⟨t, ht, hpc, hflags, hframe⟩ :=
    finish_branch_spec k (lowByte (adder (s.reg a) (s.operandB b) false)) (adder (s.reg a) (s.operandB b) false)
      (s.reg a) (s.operandB b) s
  refine ⟨t, ht, ?pc, ?flags, hframe⟩
  case pc => rw [hpc, apply_ite BitVec.toNat, lowByte_toNat, hsum]
  case flags => rw [hflags, flagsOf_eq_flagRule, hsum]

/-- JMPI: the target is the immediate, the flags are those of a non-ALU opcode (R141). -/
theorem jumpImmediate_spec (k : Cond) (target : Byte) (s : State) :
    ∃ t, jumpImmediate k target s = .next t ∧ t.pc = (if condHolds k s.flags then target else s.pc) ∧
      flagBits t.flags = (false, false, true, false) ∧ OnlyPcAndFlags s t := by
  obtain ⟨t, ht, hpc, hflags, hframe⟩ := finish_branch_spec k target 0 0 0 s
  exact ⟨t, ht, hpc, by rw [hflags, flagsOf_zero, flagBits], hframe⟩

/-! ### The words of the jumps (R51, R52, R59) -/

/-- A condition's code under JMP is decoded to the register jump of that condition. -/
theorem decode_regJump {c : Config} (hwf : c.wf = true) (k : Cond) (a : RegNum) {b : OperandB} (hb : b.wf = true) :
    decode c (packHi (c.opNumber .jmp) (c.condCode k)) (packOperands a b) = .ok (regJump k a b) := by
  rw [decode_packHi hwf rfl, decodeR, destField_packHi, Config.condOf_condCode hwf, regAField_packOperands,
    decodeB_packOperands a hb]

/-- A condition's code under JMPI is decoded to the immediate jump of that condition. -/
theorem decode_immJump {c : Config} (hwf : c.wf = true) (k : Cond) (target : Byte) :
    decode c (packHi (c.opNumber .jmpi) (c.condCode k)) target = .ok (immJump k target) := by
  rw [decode_of_opNumber hwf (opcodeField_packHi _ _), OpName.isImmediate, if_pos rfl, decodeI, destField_packHi,
    Config.condOf_condCode hwf]

/-! ### Source statements of jumps (R80, R86) -/

/-- A table's answer is one of its entries. -/
theorem mem_of_lookup {α : Type} {table : List (Ident × α)} {name : Ident} {v : α}
    (h : lookup table name = some v) : (name, v) ∈ table := by
  obtain ⟨p, hfind, rfl⟩ := Option.map_eq_some_iff.mp h
  obtain rfl : p.1 = name := by simpa using List.find?_some hfind
  exact List.mem_of_find?_eq_some hfind

/-- No jump mnemonic is a three-operand mnemonic (R76, R80). -/
theorem lookup_threeOperandOps_of_mem_jumpOps : ∀ p ∈ jumpOps, lookup threeOperandOps p.1 = none := by decide

/-- A jump mnemonic has the record of its condition's jump (R80). -/
theorem recordOf_jump (c : Config) {op : Ident} {k : Cond} (hop : lookup jumpOps op = some k) (xs : List Operand) :
    recordOf c op xs = jumpRecord c k xs := by
  have hthree : lookup threeOperandOps op = none := lookup_threeOperandOps_of_mem_jumpOps _ (mem_of_lookup hop)
  simp [recordOf, hthree, hop]

/-- A statement without labels assembles to the image of its record. -/
theorem assembleStatement_of_recordOf {c : Config} {op : Ident} {args : List Token} {xs : List Operand} {r : Record}
    (hargs : operandsOf args = .ok xs) (hrec : recordOf c op xs = .ok r) :
    assembleStatement c op args = recordImage c [] r := by
  simp only [assembleStatement, hargs, hrec]

/-- The image of a record is what the encoder makes of it once its labels are resolved (R86). -/
theorem recordImage_of_resolveRecord {c : Config} {labels : List (Ident × Nat)} {r r' : Record} {bs : List Byte}
    (hres : resolveRecord labels r = .ok r') (henc : encodeRecord c r' = .ok bs) : recordImage c labels r = .ok bs := by
  simp only [recordImage, hres, henc]

/-- A condition code is no label. -/
theorem resolve_cond (labels : List (Ident × Nat)) (d : BitVec 3) : resolve labels (.cond d) = .ok (.cond d) := rfl

/-- A register jump's record is packed with the condition's code as its destination (R51, R80). -/
theorem recordImage_regJump (c : Config) (labels : List (Ident × Nat)) (k : Cond) (a : RegNum) {b : OperandB}
    (hb : b.wf = true) :
    recordImage c labels (.rfmt (c.opNumber .jmp) (.cond (c.condCode k)) (.reg a) (operandB b)) =
      .ok (wordBytes c (packHi (c.opNumber .jmp) (c.condCode k)) (packOperands a b)) := by
  have hdst : rDestinationOk c (c.opNumber .jmp) (.cond (c.condCode k)) = true := if_pos rfl
  exact recordImage_of_resolveRecord (by cases b <;> rfl) (encodeRecord_rfmt a hdst hb)

/-- An immediate jump's record is packed with the condition's code as its destination and with the value its target
resolves to, mod 256 (R52, R55, R86). -/
theorem recordImage_immJump (c : Config) {labels : List (Ident × Nat)} (k : Cond) {x : Operand} {v : Int} {target : Byte}
    (hx : resolve labels x = .ok (.int v)) (hv : v % 256 = target.toNat) :
    recordImage c labels (.ifmt (c.opNumber .jmpi) (.cond (c.condCode k)) x) =
      .ok (wordBytes c (packHi (c.opNumber .jmpi) (c.condCode k)) target) := by
  have hdst : immDstOk c (c.opNumber .jmpi) (.cond (c.condCode k)) = true := if_pos rfl
  have hbyte : (Operand.int v).valueByte = target :=
    BitVec.eq_of_toNat_eq (Int.ofNat_inj.mp ((valueByte_int_toNat v).trans hv))
  refine recordImage_of_resolveRecord (r' := .ifmt _ (.cond _) (.int v)) ?_ (hbyte ▸ encodeRecord_ifmt v hdst)
  simp only [resolveRecord, resolve_cond, hx]

/-- A jump statement with a register sum assembles to the word of the register jump, which decodes to it. -/
theorem writtenAs_regJump {op : Ident} {k : Cond} {args : List Token} {xs : List Operand} {a : RegNum} {b : OperandB}
    (hop : lookup jumpOps op = some k) (hargs : operandsOf args = .ok xs)
    (hrec : jumpRecord Config.default k xs =
      .ok (.rfmt (Config.default.opNumber .jmp) (.cond (Config.default.condCode k)) (.reg a) (operandB b)))
    (hb : b.wf = true) :
    WrittenAs op args (regJump k a b) (packHi 12 (Config.default.condCode k)) (packOperands a b) := by
  have hasm := assembleStatement_of_recordOf hargs ((recordOf_jump _ hop xs).trans hrec)
  exact ⟨hasm.trans (recordImage_regJump _ [] k a hb), decode_regJump Config.default_wf k a hb⟩

/-- A jump statement with an integer assembles to the word of the immediate jump to that integer mod 256, which decodes
to it. -/
theorem writtenAs_immJump {op : Ident} {k : Cond} {v : Int} {target : Byte} (hop : lookup jumpOps op = some k)
    (hv : v % 256 = target.toNat) :
    WrittenAs op [.int v] (immJump k target) (packHi 18 (Config.default.condCode k)) target := by
  have hasm := assembleStatement_of_recordOf (args := [.int v]) rfl (recordOf_jump Config.default hop _)
  exact ⟨hasm.trans (recordImage_immJump _ k rfl hv), decode_immJump Config.default_wf k target⟩

/-- A jump statement with a label assembles to the word of the immediate jump to the label's address. -/
theorem labelWrittenAs_immJump {op : Ident} {k : Cond} (target : Byte) (hop : lookup jumpOps op = some k) :
    LabelWrittenAs op [] (packHi 18 (Config.default.condCode k)) target := by
  intro name
  have hlabel : resolve [(name, target.toNat)] (.label name) = .ok (.int target.toNat) := by simp [resolve, lookup]
  have hmod : (target.toNat : Int) % 256 = target.toNat := by have := target.isLt; omega
  exact ⟨_, recordOf_jump _ hop _, recordImage_immJump _ k hlabel hmod⟩

/-! ### The two kinds of jump -/

/-- Settles O41: one meaning for the six conditions, one record for the two source forms. -/
theorem registerJumpsTakeSum : Obligations.RegisterJumpsTakeSum := by
  intro s k a b
  refine ⟨exec_regJump k a b s ▸ jumpRegister_spec k a b s, fun hb op hop => ?sum, fun op hop => ?single,
    fun d lo hd => decode_of_condCode_ne Config.default_wf (.inl rfl) hd lo⟩
  case sum => exact writtenAs_regJump (xs := [.reg a, operandB b]) hop (by simp [operandsOf]) rfl hb
  case single => exact writtenAs_regJump (xs := [.reg a]) hop rfl rfl rfl

/-- Settles O42: one meaning for the six conditions, one record for an integer target and for a label. -/
theorem immediateJumpsTakeImmediate : Obligations.ImmediateJumpsTakeImmediate := by
  intro s k target
  exact ⟨exec_immJump k target s ▸ jumpImmediate_spec k target s, fun _ _ hop hv => writtenAs_immJump hop hv,
    fun _ hop => labelWrittenAs_immJump target hop,
    fun _ hd => decode_of_condCode_ne Config.default_wf (.inr rfl) hd target⟩

end Sys2Proof.Claims
end

section
/-! LD, ST, STI (R150 to R153): what a store at `x[7]` and a load from it change, and the words of their source forms, of
which STI's, like IMM's, is an I-format word with a register destination. -/

namespace Sys2Proof.Claims

open Sys2Proof Sys2Proof.Machine

/-! ### The effect of a load (R150) -/

/-- LD's next state: the read's, with the byte in the register and the flags of a non-ALU opcode. -/
theorem exec_ld (d : RegNum) (s : State) :
    exec (.ld d) s =
      .next (((s.memRead (s.reg 7)).2.setReg d (s.memRead (s.reg 7)).1).setFlags ⟨false, false, true, false⟩) :=
  finishNonAlu_eq _

/-! ### The effect of a store (R151, R152) -/

/-- A data write at `x[7]` is a store of the byte: through the devices that stand there, else into memory (R37). -/
theorem memWrite_storesByte (s : State) (v : Byte) : StoresByte v s (s.memWrite s.dataAddress v) := by
  constructor
  · intro hdev
    rw [memWrite_of_device v hdev]
    exact ⟨fun _ => rfl, rfl⟩
  · intro hno
    rw [memWrite_of_noDevice v hno]
    exact ⟨fun _ hne => Memory.read_write_of_ne _ v hne, rfl, rfl, fun hwf => Memory.read_write_self v hwf⟩

/-- A data write leaves the CPU's state outside memory alone. -/
theorem memWrite_storeFrame (s : State) (a v : Byte) : StoreFrame s (s.memWrite a v) :=
  ⟨reg_memWrite s a v, memWrite_pc s a v, memWrite_halted s a v, memWrite_cfg s a v⟩

/-- An opcode that stores `v` and ends with the flags of `out`, `a` and `b`. -/
theorem finish_memWrite_spec (out : Acc) (a b v : Byte) (s : State) :
    ∃ t, finish out a b (s.memWrite s.dataAddress v) = .next t ∧ StoresByte v s t ∧
      t.flags = flagRule out.toNat (neg a) (neg b) ∧ StoreFrame s t :=
  ⟨_, finish_eq _ _ _ _, memWrite_storesByte s v, flagsOf_eq_flagRule out a b, memWrite_storeFrame s _ v⟩

/-- ST ends with the flags of the sum that it stores (R151). -/
theorem exec_st (a : RegNum) (b : OperandB) (s : State) :
    exec (.st a b) s = finish (adder (s.reg a) (s.operandB b) false) (s.reg a) (s.operandB b)
      (s.memWrite s.dataAddress (lowByte (adder (s.reg a) (s.operandB b) false))) := rfl

/-- STI ends with the flags of the immediate that it stores, with no operand values (R152). -/
theorem exec_sti (n : Byte) (s : State) :
    exec (.sti n) s = finish (n.setWidth 9) 0 0 (s.memWrite s.dataAddress n) := rfl

/-- The low byte of a sum without carry-in is the sum mod 256. -/
theorem lowByte_adder (a b : Byte) : lowByte (adder a b false) = BitVec.ofNat 8 (a.toNat + b.toNat) := by
  apply BitVec.eq_of_toNat_eq
  rw [lowByte_toNat, adder_toNat, BitVec.toNat_ofNat]
  rfl

/-- R99's flags of a byte as the accumulator, with no operand values: `C` is 0, and `V` is the sign (R152). -/
theorem flagBits_of_byte (n : Byte) :
    flagBits (flagRule n.toNat (neg 0) (neg 0)) = (false, neg n, decide (n = 0), neg n) := by
  have hlt := n.isLt
  have hcarry : decide (256 ≤ n.toNat) = false := decide_eq_false (by omega)
  have hzero : n.toNat = 0 ↔ n = 0 := BitVec.toNat_inj (y := (0 : Byte))
  have hneg : neg 0 = false := rfl
  simp only [flagRule_of_low (Nat.mod_eq_of_lt hlt).symm, flagBits, hcarry, hzero, hneg, beq_self_eq_true, Bool.true_and,
    Bool.false_bne]

/-! ### The words of LD and ST (R66, R78, R82) -/

/-- R-format decode of LD reads the destination only (R66). -/
theorem decodeR_ld (c : Config) (d : RegNum) (lo : Byte) :
    decodeR c .ld (packHi (c.opNumber .ld) d) lo = .ok (.ld d) := by
  rw [decodeR, destField_packHi]

/-- R-format decode of ST reads no destination (R66). -/
theorem decodeR_st (c : Config) (hi : Byte) (a : RegNum) {b : OperandB} (hb : b.wf = true) :
    decodeR c .st hi (packOperands a b) = .ok (.st a b) := by
  rw [decodeR, regAField_packOperands, decodeB_packOperands a hb]

/-- The record of LD's source form has register 0 as both operands (R67). -/
theorem writtenAs_ld (d : RegNum) : WrittenAs "ld".toList [.reg d] (.ld d) (packHi 13 d) 0 :=
  writtenAs_of_recordOf (o := .ld) (a := 0) (b := .reg 0) (xs := [.reg d]) rfl rfl rfl nofun rfl (decodeR_ld _ d _)

/-- A statement whose record is that of a store assembles to the store's word. -/
theorem writtenAs_st {args : List Token} {xs : List Operand} {a : RegNum} {b : OperandB}
    (hargs : operandsOf args = .ok xs)
    (hrec : recordOf Config.default "st".toList xs =
      .ok (.rfmt (Config.default.opNumber .st) (.reg 0) (.reg a) (operandB b)))
    (hb : b.wf = true) : WrittenAs "st".toList args (.st a b) (packHi 14 0) (packOperands a b) :=
  writtenAs_of_recordOf (o := .st) hargs hrec rfl nofun hb (decodeR_st _ _ a hb)

/-! ### I-format words with a register destination (R52, R55, R86) -/

/-- The value byte of an integer is the byte that the integer is mod 256 (R55). -/
theorem valueByte_of_emod {v : Int} {n : Byte} (hv : v % 256 = n.toNat) : (Operand.int v).valueByte = n :=
  BitVec.eq_of_toNat_eq (Int.ofNat_inj.mp ((valueByte_int_toNat v).trans hv))

/-- A byte as an integer is itself mod 256. -/
theorem byte_emod (n : Byte) : (n.toNat : Int) % 256 = n.toNat := by
  have hlt := n.isLt
  omega

/-- A label resolves to its address (R86). -/
theorem resolve_label (name : Ident) (a : Nat) : resolve [(name, a)] (.label name) = .ok (.int a) := by
  simp [resolve, lookup]

/-- Pass 2 packs an I-format record with a register destination and with the value it resolves to, mod 256. -/
theorem recordImage_ifmt {c : Config} {labels : List (Ident × Nat)} {o : OpName} (d : RegNum) {x : Operand} {v : Int}
    {n : Byte} (ho : c.opNumber o ≠ c.opNumber .jmpi) (hx : resolve labels x = .ok (.int v)) (hv : v % 256 = n.toNat) :
    recordImage c labels (.ifmt (c.opNumber o) (.reg d) x) = .ok (wordBytes c (packHi (c.opNumber o) d) n) := by
  have hres : resolveRecord labels (.ifmt (c.opNumber o) (.reg d) x) = .ok (.ifmt (c.opNumber o) (.reg d) (.int v)) := by
    simp only [resolveRecord, hx]
    rfl
  exact recordImage_of_resolveRecord hres (valueByte_of_emod hv ▸ encodeRecord_ifmt v (immDstOk_reg d ho))

/-- The word of an I-format opcode is decoded by that format. -/
theorem decode_packHi_immediate {c : Config} (hwf : c.wf = true) {o : OpName} (himm : o.isImmediate = true)
    (d : BitVec 3) (lo : Byte) :
    decode c (packHi (c.opNumber o) d) lo = decodeI c o (packHi (c.opNumber o) d) lo :=
  (decode_of_opNumber hwf (opcodeField_packHi _ _) lo).trans (if_pos himm)

/-- A statement whose record is I-format with a register destination and an integer assembles to the word of that integer
mod 256, and the word decodes to what the opcode's I-format decode makes of it. -/
theorem writtenAs_of_recordOf_ifmt {op : Ident} {args : List Token} {xs : List Operand} {o : OpName} {d : RegNum}
    {v : Int} {n : Byte} {i : Instr} (hargs : operandsOf args = .ok xs)
    (hrec : recordOf Config.default op xs = .ok (.ifmt (Config.default.opNumber o) (.reg d) (.int v)))
    (himm : o.isImmediate = true) (hjmpi : o ≠ .jmpi) (hv : v % 256 = n.toNat)
    (hdec : decodeI Config.default o (packHi (Config.default.opNumber o) d) n = .ok i) :
    WrittenAs op args i (packHi (Config.default.opNumber o) d) n := by
  have hnum : Config.default.opNumber o ≠ Config.default.opNumber .jmpi :=
    mt (Config.opNumber_injective Config.default_wf) hjmpi
  exact ⟨(assembleStatement_of_recordOf hargs hrec).trans (recordImage_ifmt d hnum rfl hv),
    (decode_packHi_immediate Config.default_wf himm d n).trans hdec⟩

/-- A statement whose record is I-format with a register destination and a label assembles to the word of the label's
address. -/
theorem labelWrittenAs_of_recordOf_ifmt {op : Ident} {before : List Operand} {o : OpName} {d : RegNum} (n : Byte)
    (hrec : ∀ name, recordOf Config.default op (before ++ [.label name]) =
      .ok (.ifmt (Config.default.opNumber o) (.reg d) (.label name)))
    (hjmpi : o ≠ .jmpi) : LabelWrittenAs op before (packHi (Config.default.opNumber o) d) n := by
  have hnum : Config.default.opNumber o ≠ Config.default.opNumber .jmpi :=
    mt (Config.opNumber_injective Config.default_wf) hjmpi
  exact fun name => ⟨_, hrec name, recordImage_ifmt d hnum (resolve_label name _) (byte_emod n)⟩

/-! ### The three instructions -/

/-- Settles O47: the read at the old `x[7]` comes before the register write, and changes at most the devices. -/
theorem ldLoadsFromRegisterSeven : Obligations.LdLoadsFromRegisterSeven := by
  intro s d
  refine ⟨⟨_, exec_ld d s, ?byte, fun hno => ?raw, fun _ => ⟨rfl, rfl⟩, rfl, ?registers, memRead_pc s _,
    memRead_halted s _, fun _ => ?memory, memRead_cfg s _⟩, writtenAs_ld d, fun lo => ?anyLowByte⟩
  case byte => exact State.reg_setReg_self _ d _
  case raw =>
    rw [memRead_of_noDevice hno]
    exact ⟨State.reg_setReg_self s d _, rfl, rfl⟩
  case registers =>
    intro r hr
    exact (State.reg_setReg_of_ne _ _ hr).trans (reg_memRead s _ r)
  case memory => exact congrArg (Memory.read · _) (memRead_mem s _)
  case anyLowByte => exact (decode_packHi (o := .ld) Config.default_wf rfl d lo).trans (decodeR_ld _ d lo)

/-- Settles O48: a store of the low byte of the sum, with the flags of the sum. -/
theorem stStoresSum : Obligations.StStoresSum := by
  intro s a b
  refine ⟨?effect, fun hb => ⟨writtenAs_st (xs := [.reg a, operandB b]) (by simp [operandsOf]) rfl hb,
    fun d => ?anyDestination⟩, writtenAs_st (b := .reg a) (xs := [.reg a]) rfl rfl rfl⟩
  case effect =>
    have hsum : (adder (s.reg a) (s.operandB b) false).toNat = (s.reg a).toNat + (s.operandB b).toNat :=
      adder_toNat _ _ false
    rw [exec_st, lowByte_adder, ← hsum]
    exact finish_memWrite_spec _ _ _ _ s
  case anyDestination => exact (decode_packHi (o := .st) Config.default_wf rfl d _).trans (decodeR_st _ _ a hb)

/-- Settles O49: a store of the immediate, which is also the accumulator of the flags. -/
theorem stiStoresImmediate : Obligations.StiStoresImmediate := by
  intro s n
  refine ⟨?effect, fun v hv => ?integer, labelWrittenAs_of_recordOf_ifmt (o := .sti) n (fun _ => rfl) nofun,
    fun d => decode_packHi_immediate (o := .sti) Config.default_wf rfl d n⟩
  case effect =>
    obtain ⟨t, ht, hstores, hflags, hframe⟩ := finish_memWrite_spec (n.setWidth 9) 0 0 n s
    have hout : (n.setWidth 9).toNat = n.toNat := BitVec.toNat_setWidth_of_le (by decide)
    exact ⟨t, (exec_sti n s).trans ht, hstores, by rw [hflags, hout, flagBits_of_byte], hframe⟩
  case integer => exact writtenAs_of_recordOf_ifmt (o := .sti) (xs := [.int v]) rfl rfl rfl nofun hv rfl

end Sys2Proof.Claims
end

section
/-! IMM, HALT, NOP (R160, R162, R163): the next state of each, and the words of their source forms. HALT and NOP have no
operands and share one record; `imm` and `mov` share the other. -/

namespace Sys2Proof.Claims

open Sys2Proof Sys2Proof.Machine

/-! ### The effects -/

/-- IMM's next state: the register written, with the flags of a non-ALU opcode (R160). -/
theorem exec_imm (d : RegNum) (n : Byte) (s : State) :
    exec (.imm d n) s = .next ((s.setReg d n).setFlags ⟨false, false, true, false⟩) :=
  finishNonAlu_eq (s.setReg d n)

/-- NOP's next state: the flags of a non-ALU opcode (R163). -/
theorem exec_nop (s : State) : exec .nop s = .next (s.setFlags ⟨false, false, true, false⟩) :=
  finishNonAlu_eq s

/-- Writing a register and then the flags changes nothing else. -/
theorem setReg_setFlags_onlyRegisterAndFlags (d : RegNum) (v : Byte) (f : Flags) (s : State) :
    OnlyRegisterAndFlags d s ((s.setReg d v).setFlags f) :=
  ⟨fun _ hr => State.reg_setReg_of_ne s v hr, rfl, rfl, fun _ => rfl, rfl, rfl, rfl⟩

/-! ### Runs of a halted machine (R18, R185) -/

/-- A state that one step leaves as it is stays so for any number of steps, on any machine. -/
theorem core_run_of_step_eq_self {M : Host.Core} {s : M.State} (h : M.step s = .next s) (k : Nat) :
    M.run k s = .next s := by
  induction k with
  | zero => rfl
  | succ k ih =>
    rw [Host.Core.run, h]
    exact ih

/-- No number of steps moves a halted machine. -/
theorem core_run_of_halted {s : State} (h : s.halted = true) (k : Nat) : Host.Core.run Sys2Proof.core k s = .next s :=
  core_run_of_step_eq_self (M := Sys2Proof.core) (step_of_halted h) k

/-! ### The source forms (R77, R83, R84) -/

/-- The word of an opcode whose R-format decode reads no field decodes to its one instruction, whatever the destination
field and the low byte (R66), and a statement without operands assembles to the word with all of them zero (R67). -/
theorem writtenAs_and_decode_of_noFields {op : Ident} {o : OpName} {i : Instr}
    (hrec : recordOf Config.default op [] =
      .ok (.rfmt (Config.default.opNumber o) (.reg 0) (.reg 0) (.reg 0)))
    (himm : o.isImmediate = false) (hjmp : o ≠ .jmp) (hdec : ∀ hi lo, decodeR Config.default o hi lo = .ok i) :
    WrittenAs op [] i (packHi (Config.default.opNumber o) 0) 0 ∧
      ∀ d lo, decode Config.default (packHi (Config.default.opNumber o) d) lo = .ok i :=
  ⟨writtenAs_of_recordOf (a := 0) (b := .reg 0) (xs := []) rfl hrec himm hjmp rfl (hdec _ _),
    fun d lo => (decode_packHi Config.default_wf himm d lo).trans (hdec _ _)⟩

/-- A statement whose record is that of IMM assembles to the word of the integer mod 256, which decodes to IMM. -/
theorem writtenAs_imm {op : Ident} {d : RegNum} {v : Int} {n : Byte} (hv : v % 256 = n.toNat)
    (hrec : recordOf Config.default op [.reg d, .int v] =
      .ok (.ifmt (Config.default.opNumber .imm) (.reg d) (.int v))) :
    WrittenAs op [.reg d, .int v] (.imm d n) (packHi 20 d) n := by
  have hdec : decodeI Config.default .imm (packHi (Config.default.opNumber .imm) d) n = .ok (.imm d n) := by
    rw [decodeI, destField_packHi]
  exact writtenAs_of_recordOf_ifmt (o := .imm) (xs := [.reg d, .int v]) rfl hrec rfl nofun hv hdec

/-! ### The three instructions -/

/-- Settles O52: one write of the register; `imm` and `mov` have the same record, for an integer and for a label. -/
theorem immWritesImmediate : Obligations.ImmWritesImmediate := by
  intro s d n
  refine ⟨⟨_, exec_imm d n s, ?byte, rfl, setReg_setFlags_onlyRegisterAndFlags d n _ s⟩,
    fun v hv => ⟨writtenAs_imm hv rfl, writtenAs_imm hv rfl⟩, ?immLabel, ?movLabel⟩
  case byte => exact State.reg_setReg_self s d n
  case immLabel => exact labelWrittenAs_of_recordOf_ifmt (o := .imm) n (fun _ => rfl) nofun
  case movLabel => exact labelWrittenAs_of_recordOf_ifmt (o := .imm) n (fun _ => rfl) nofun

/-- Settles O54: HALT's next state is halted, so that every later step leaves it. -/
theorem haltEndsRun : Obligations.HaltEndsRun :=
  ⟨fun s => ⟨_, exec_halt s, rfl, rfl, fun _ => rfl, rfl, fun _ => rfl, ⟨rfl, rfl, rfl⟩, core_run_of_halted rfl⟩,
    writtenAs_and_decode_of_noFields (o := .halt) rfl rfl nofun fun _ _ => rfl⟩

/-- Settles O55: NOP is the flag update alone. -/
theorem nopSetsZeroFlagOnly : Obligations.NopSetsZeroFlagOnly :=
  ⟨fun s => ⟨_, exec_nop s, setFlags_onlyFlags s _, rfl⟩,
    writtenAs_and_decode_of_noFields (o := .nop) rfl rfl nofun fun _ _ => rfl⟩

end Sys2Proof.Claims
end

section
/-! The one-register store (R198): the byte that ST leaves at an address without a device, for its two source forms. -/

namespace Sys2Proof.Claims

open Sys2Proof Sys2Proof.Machine

/-- At an address without a device the byte at `x[7]` after ST is the sum of the operands mod 256 (R37, R151). -/
theorem exec_st_read_of_noDevice {s : State} (hno : s.hasDevice s.dataAddress = false) (hwf : s.mem.wf = true)
    (a : RegNum) (b : OperandB) :
    ∃ t, exec (.st a b) s = .next t ∧
      t.mem.read s.dataAddress.toNat = BitVec.ofNat 8 ((s.reg a).toNat + (s.operandB b).toNat) := by
  obtain ⟨⟨t, ht, ⟨_, hmemory⟩, _⟩, _⟩ := stStoresSum s a b
  obtain ⟨_, _, _, hread⟩ := hmemory hno
  exact ⟨t, ht, hread hwf⟩

/-- Settles O50: `st rB` is ST with operand A = register 0, so that it adds `x[0]`; `st rB 0` adds the literal 0. -/
theorem oneRegisterStoreAddsRegisterZero : Obligations.OneRegisterStoreAddsRegisterZero := by
  intro s r hno hwf
  constructor
  case left =>
    obtain ⟨t, ht, hread⟩ := exec_st_read_of_noDevice hno hwf 0 (.reg r)
    obtain ⟨_, _, hwritten⟩ := stStoresSum s r (.reg r)
    exact ⟨_, _, _, t, hwritten, ht, (congrArg BitVec.toNat hread).trans (BitVec.toNat_ofNat _ 8)⟩
  case right =>
    obtain ⟨t, ht, hread⟩ := exec_st_read_of_noDevice hno hwf r (.lit 0)
    obtain ⟨_, hwritten, _⟩ := stStoresSum s r (.lit 0)
    have hzero : BitVec.ofNat 8 ((s.reg r).toNat + (s.operandB (.lit 0)).toNat) = s.reg r := by
      simp [State.operandB]
    exact ⟨_, _, _, t, (hwritten rfl).left, ht, hread.trans hzero⟩

end Sys2Proof.Claims
end

section
/-! Decode and encode in both directions, opcode by opcode (R51 to R54, R66, R67, R92 to R95), and from them what ignored
bits do (R66) and what the bytes of an instruction do at `pc` (R90, R91). -/

namespace Sys2Proof.Claims

open Sys2Proof Sys2Proof.Machine

/-! ### Decoding what `encode` wrote -/

/-- The packed word of an R-format opcode whose decode is the constructor `mk` of its fields decodes to `mk` of what was
packed; `mk` leaves out the fields that the opcode ignores (R66). -/
theorem decode_packed {c : Config} (hwf : c.wf = true) {o : OpName} {mk : RegNum → RegNum → OperandB → Instr}
    (himm : o.isImmediate = false)
    (hdec : ∀ hi lo, decodeR c o hi lo = .ok (mk (destField hi) (regAField lo) (decodeB lo)))
    (d a : RegNum) {b : OperandB} (hb : b.wf = true) :
    decode c (packHi (c.opNumber o) d) (packOperands a b) = .ok (mk d a b) := by
  rw [decode_packHi hwf himm, hdec, destField_packHi, regAField_packOperands, decodeB_packOperands a hb]

/-- Settles O1: by the form of the instruction, of which there are four: R-format fields, a register jump, an immediate
jump, and the two other I-format opcodes. -/
theorem decodeReadsWhatEncodeWrites : Obligations.DecodeReadsWhatEncodeWrites := by
  intro c i hc hi
  cases i with
  | add d a b | addc d a b | sub d a b | subc d a b | cmpc d a b | xor d a b | nand d a b | or d a b | and d a b
  | shr d a b | shrc d a b =>
    exact decode_packed hc rfl (fun _ _ => rfl) d a hi
  | cmp a b => exact decode_packed hc (mk := fun _ => .cmp) rfl (fun _ _ => rfl) 0 a hi
  | st a b => exact decode_packed hc (mk := fun _ => .st) rfl (fun _ _ => rfl) 0 a hi
  | ld d => exact decode_packed hc (mk := fun d _ _ => .ld d) rfl (fun _ _ => rfl) d 0 hi
  | rand d => exact decode_packed hc (mk := fun d _ _ => .rand d) rfl (fun _ _ => rfl) d 0 hi
  | halt => exact decode_packed hc (mk := fun _ _ _ => .halt) rfl (fun _ _ => rfl) 0 0 hi
  | nop => exact decode_packed hc (mk := fun _ _ _ => .nop) rfl (fun _ _ => rfl) 0 0 hi
  | jmp a b => exact decode_regJump hc .always a hi
  | jeq a b => exact decode_regJump hc .jeq a hi
  | jgt a b => exact decode_regJump hc .jgt a hi
  | jge a b => exact decode_regJump hc .jge a hi
  | jgts a b => exact decode_regJump hc .jgts a hi
  | jges a b => exact decode_regJump hc .jges a hi
  | jmpi n => exact decode_immJump hc .always n
  | jeqi n => exact decode_immJump hc .jeq n
  | jgti n => exact decode_immJump hc .jgt n
  | jgei n => exact decode_immJump hc .jge n
  | jgtsi n => exact decode_immJump hc .jgts n
  | jgesi n => exact decode_immJump hc .jges n
  | sti n => exact decode_packHi_immediate (o := .sti) hc rfl 0 n
  | imm d n => exact (decode_packHi_immediate (o := .imm) hc rfl d n).trans (by rw [decodeI, destField_packHi])

/-! ### Encoding what `decode` read -/

/-- A high byte with its destination field cleared (R66, R67). -/
theorem packHi_opcodeField_zero (hi : Byte) : packHi (opcodeField hi) 0 = hi &&& 0xF8 := by revert hi; decide

/-- The low byte of a word whose low byte is ignored is zero (R67). -/
theorem packOperands_zero : packOperands 0 (.reg 0) = 0 := by decide

/-- A register jump is encoded with its condition's code as the destination (R51). -/
theorem encode_regJump (c : Config) (k : Cond) (a : RegNum) (b : OperandB) :
    encode c (regJump k a b) = (packHi (c.opNumber .jmp) (c.condCode k), packOperands a b) := by
  cases k <;> rfl

/-- An immediate jump is encoded with its condition's code as the destination (R52). -/
theorem encode_immJump (c : Config) (k : Cond) (n : Byte) :
    encode c (immJump k n) = (packHi (c.opNumber .jmpi) (c.condCode k), n) := by
  cases k <;> rfl

/-- A register jump is well formed if its operand B is. -/
theorem regJump_wf (k : Cond) (a : RegNum) (b : OperandB) : (regJump k a b).wf = b.wf := by cases k <;> rfl

/-- An immediate jump is well formed. -/
theorem immJump_wf (k : Cond) (n : Byte) : (immJump k n).wf = true := by cases k <;> rfl

/-- What the R-format decode of a word reads is encoded as the word's canonical word. -/
theorem encode_of_decodeR {c : Config} {o : OpName} {hi lo : Byte} {i : Instr} (ho : c.opOf (opcodeField hi) = some o)
    (h : decodeR c o hi lo = .ok i) : i.wf = true ∧ encode c i = canonicalWord c hi lo := by
  have hnum : c.opNumber o = opcodeField hi := Config.opNumber_of_opOf ho
  cases o with
  | add | addc | sub | subc | cmpc | xor | nand | or | and | shr | shrc =>
    cases h
    exact ⟨decodeB_wf lo, by simp only [encode, canonicalWord, ho, hnum, packHi_fields, packOperands_decodeB]⟩
  | cmp | st =>
    cases h
    exact ⟨decodeB_wf lo, by simp only [encode, canonicalWord, ho, hnum, packHi_opcodeField_zero, packOperands_decodeB]⟩
  | ld | rand =>
    cases h
    exact ⟨rfl, by simp only [encode, canonicalWord, ho, hnum, packHi_fields, packOperands_zero]⟩
  | halt | nop =>
    cases h
    exact ⟨rfl, by simp only [encode, canonicalWord, ho, hnum, packHi_opcodeField_zero, packOperands_zero]⟩
  | jmp =>
    cases hk : c.condOf (destField hi) with
    | none => simp [decodeR, hk] at h
    | some k =>
      obtain rfl : regJump k (regAField lo) (decodeB lo) = i := by simpa [decodeR, hk] using h
      refine ⟨(regJump_wf k _ _).trans (decodeB_wf lo), ?_⟩
      simp only [encode_regJump, canonicalWord, ho, hnum, Config.condCode_of_condOf hk, packHi_fields,
        packOperands_decodeB]
  | jmpi | sti | imm => cases h

/-- What the I-format decode of a word reads is encoded as the word's canonical word. -/
theorem encode_of_decodeI {c : Config} {o : OpName} {hi lo : Byte} {i : Instr} (ho : c.opOf (opcodeField hi) = some o)
    (h : decodeI c o hi lo = .ok i) : i.wf = true ∧ encode c i = canonicalWord c hi lo := by
  have hnum : c.opNumber o = opcodeField hi := Config.opNumber_of_opOf ho
  cases o with
  | jmpi =>
    cases hk : c.condOf (destField hi) with
    | none => simp [decodeI, hk] at h
    | some k =>
      obtain rfl : immJump k lo = i := by simpa [decodeI, hk] using h
      refine ⟨immJump_wf k lo, ?_⟩
      simp only [encode_immJump, canonicalWord, ho, hnum, Config.condCode_of_condOf hk, packHi_fields]
  | sti =>
    cases h
    exact ⟨rfl, by simp only [encode, canonicalWord, ho, hnum, packHi_opcodeField_zero]⟩
  | imm =>
    cases h
    exact ⟨rfl, by simp only [encode, canonicalWord, ho, hnum, packHi_fields]⟩
  | _ => cases h

/-- Settles O2: an accepted word has a defined opcode, and is read by one of the two formats. -/
theorem encodeWritesWhatDecodeReads : Obligations.EncodeWritesWhatDecodeReads := by
  intro c hi lo i _ hdec
  unfold decode at hdec
  split at hdec
  next => cases hdec
  next o ho =>
    split at hdec
    next => exact encode_of_decodeI ho hdec
    next => exact encode_of_decodeR ho hdec

/-! ### Ignored bits (R66) -/

/-- With `sel` 0 the operand fields do not read `lo[3]`. -/
theorem operandFields_of_ignored_bit {lo : Byte} (h : selField lo = false) :
    regAField (lo ^^^ 0x08) = regAField lo ∧ decodeB (lo ^^^ 0x08) = decodeB lo := by
  revert lo; decide

/-- Words that differ in ignored bits have the operand fields that their opcode reads in common. -/
theorem SameButIgnored.operandFields {o : OpName} {hi lo hi' lo' : Byte} (h : SameButIgnored o hi lo hi' lo')
    (hlo : loIgnored o = false) : regAField lo' = regAField lo ∧ decodeB lo' = decodeB lo := by
  obtain ⟨-, -, hsame⟩ := h
  rcases hsame hlo with rfl | ⟨-, hsel, rfl⟩
  · exact ⟨rfl, rfl⟩
  · exact operandFields_of_ignored_bit hsel

/-- Words of an I-format opcode that differ in ignored bits have the immediate in common. -/
theorem SameButIgnored.immediate {o : OpName} {hi lo hi' lo' : Byte} (h : SameButIgnored o hi lo hi' lo')
    (himm : o.isImmediate = true) : lo' = lo := by
  obtain ⟨-, -, hsame⟩ := h
  have hlo : loIgnored o = false := by
    cases o with
    | jmpi | sti | imm => rfl
    | _ => cases himm
  rcases hsame hlo with rfl | ⟨hreg, -⟩
  · rfl
  · rw [himm] at hreg
    cases hreg

/-- The decode of a word reads no ignored bit but CMPC's destination (R66, R76). -/
theorem SameButIgnored.decode_eq {c : Config} (hwf : c.wf = true) {o : OpName} {hi lo hi' lo' : Byte}
    (h : SameButIgnored o hi lo hi' lo') (ho : opcodeField hi = c.opNumber o) (hcmpc : o ≠ .cmpc) :
    decode c hi' lo' = decode c hi lo := by
  have ⟨hop, hdest, _⟩ := h
  rw [decode_of_opNumber hwf ho, decode_of_opNumber hwf (hop.trans ho)]
  cases o with
  | add | addc | sub | subc | xor | nand | or | and | shr | shrc | jmp =>
    obtain ⟨ha, hb⟩ := h.operandFields rfl
    simp [OpName.isImmediate, decodeR, hdest rfl, ha, hb]
  | cmp | st =>
    obtain ⟨ha, hb⟩ := h.operandFields rfl
    simp [OpName.isImmediate, decodeR, ha, hb]
  | ld | rand => simp [OpName.isImmediate, decodeR, hdest rfl]
  | halt | nop => rfl
  | jmpi | imm => simp [OpName.isImmediate, decodeI, hdest rfl, h.immediate rfl]
  | sti => simp [OpName.isImmediate, decodeI, h.immediate rfl]
  | cmpc => exact absurd rfl hcmpc

/-- A CMPC word has the effect of CMPC on its operand fields, with whatever destination: the meaning of CMPC does not use
it (R115). -/
theorem effect_cmpc {c : Config} (hwf : c.wf = true) {hi : Byte} (ho : opcodeField hi = c.opNumber .cmpc) (lo : Byte)
    (s : State) : effect c hi lo s = exec (.cmpc 0 (regAField lo) (decodeB lo)) s := by
  have hdec : decode c hi lo = .ok (.cmpc (destField hi) (regAField lo) (decodeB lo)) := decode_of_opNumber hwf ho lo
  rw [effect, hdec]
  exact (exec_cmpc _ _ _ s).trans (exec_cmpc _ _ _ s).symm

/-- Settles O5: words that differ in ignored bits decode alike, CMPC's apart, which has one meaning for every
destination. -/
theorem ignoredFieldsHaveNoEffect : Obligations.IgnoredFieldsHaveNoEffect := by
  intro c o hi lo hi' lo' s hwf hname h
  have ho : opcodeField hi = c.opNumber o := (Config.opNumber_of_opOf hname).symm
  by_cases hcmpc : o = .cmpc
  · subst hcmpc
    obtain ⟨ha, hb⟩ := h.operandFields rfl
    rw [effect_cmpc hwf ho, effect_cmpc hwf (h.left.trans ho), ha, hb]
  · rw [effect, effect, h.decode_eq hwf ho hcmpc]

/-! ### The word at `pc` (R31, R90, R91) -/

/-- The address after `pc`, as a number (R34). -/
theorem byte_succ_toNat (a : Byte) : (a + 1).toNat = (a.toNat + 1) % 256 := BitVec.toNat_add a 1

/-- The order of the two bytes is its own inverse (R31). -/
theorem orderBytes_orderBytes (w : WordOrder) (hi lo : Byte) :
    orderBytes w (orderBytes w hi lo).1 (orderBytes w hi lo).2 = (hi, lo) := by
  cases w <;> rfl

/-- Settles O15: the fetch keeps the pc that the step advances, and from raw memory it changes nothing at all. -/
theorem stepRunsDecodedInstruction : Obligations.StepRunsDecodedInstruction := by
  intro s i hrun hdec
  refine ⟨?step, fun hraw => ?fetch⟩
  case step =>
    obtain ⟨-, hpc, -⟩ := fetchWord_spec s
    rw [step_of_decode hrun hdec, State.advancePc, hpc]
  case fetch =>
    rw [fetchWord_raw hraw, ← byte_succ_toNat]
    exact ⟨rfl, rfl⟩

/-- Settles O16: the fetched bytes are those of `encode`, which decode to the instruction. -/
theorem encodedInstructionRuns : Obligations.EncodedInstructionRuns := by
  intro s i hrun hwf hraw hi hbytes
  rw [← byte_succ_toNat, encodeBytes, List.cons.injEq, List.cons.injEq] at hbytes
  obtain ⟨hfirst, hsecond, -⟩ := hbytes
  have hword : s.fetchWord = ⟨(encode s.cfg i).1, (encode s.cfg i).2, s⟩ := by
    rw [fetchWord_raw hraw, hfirst, hsecond, orderBytes_orderBytes]
  have hdec : decode s.cfg s.fetchWord.hi s.fetchWord.lo = .ok i := by
    rw [hword]
    exact decodeReadsWhatEncodeWrites s.cfg i hwf hi
  rw [step_of_decode hrun hdec, hword]
  rfl

end Sys2Proof.Claims
end

section
/-! I-format records in the encoder block (R52, R55, R61), and the record of every instruction: the encoder block emits the
instruction's canonical word for it, and every source form of the instruction is read as it (R76 to R84, R87). -/

namespace Sys2Proof.Claims

open Sys2Proof Sys2Proof.Machine

/-! ### I-format records (R52, R55, R61) -/

/-- Settles O7: the encoder packs the destination's three bits and the value mod 256. -/
theorem iFormatFieldsArePacked : Obligations.IFormatFieldsArePacked := by
  intro c n dst v hdst
  exact ⟨_, _, encodeRecord_ifmt v hdst, packHi_toNat _ _, valueByte_int_toNat v⟩

/-- A value's failures, by its tag. -/
theorem mem_valueFailures_iff (v : Operand) (e : EncodeError) :
    e ∈ valueFailures v ↔ e = .valueNotInteger ∧ notInt v = true := by
  cases v <;> simp [valueFailures, notInt]

/-- The failures the encoder collects of an I-format record are those whose condition R61 names. -/
theorem mem_failures_ifmt_iff (c : Config) (n : BitVec 5) (dst v : Operand) (e : EncodeError) :
    e ∈ failures c (.ifmt n dst v) ↔
      (e = .badDestination ∧ immDstOk c n dst = false) ∨ (e = .valueNotInteger ∧ notInt v = true) := by
  rw [failures, List.mem_append, mem_valueFailures_iff]
  cases immDstOk c n dst <;> simp

/-- An I-format record meets no failure condition exactly if its destination is accepted and its value is an integer. -/
theorem failures_ifmt_eq_nil_iff (c : Config) (n : BitVec 5) (dst v : Operand) :
    failures c (.ifmt n dst v) = [] ↔ immDstOk c n dst = true ∧ notInt v = false := by
  simp only [List.eq_nil_iff_forall_not_mem, mem_failures_ifmt_iff, not_or, not_and, Bool.not_eq_false,
    Bool.not_eq_true]
  exact ⟨fun h => ⟨(h .badDestination).1 rfl, (h .valueNotInteger).2 rfl⟩, fun ⟨hdst, hv⟩ e => ⟨fun _ => hdst, fun _ => hv⟩⟩

/-- IMM and STI take a register as their destination, and no condition: neither has the number of JMPI (R61). -/
theorem immDstOk_opNumber {c : Config} (hwf : c.wf = true) {o : OpName} (ho : o = .imm ∨ o = .sti) (dst : Operand) :
    immDstOk c (c.opNumber o) dst = dst.isReg := by
  have hjmpi : c.opNumber o ≠ c.opNumber .jmpi :=
    mt (Config.opNumber_injective hwf) (by rcases ho with rfl | rfl <;> exact nofun)
  rw [immDstOk, if_neg hjmpi, if_pos (ho.imp (congrArg c.opNumber) (congrArg c.opNumber))]

/-- Settles O9: the encoder fails on the conditions of R61 alone, and the accepted tags are those of the three opcodes. -/
theorem iFormatFailuresAreReported : Obligations.IFormatFailuresAreReported := by
  intro c n dst v hwf
  refine ⟨?accepted, fun e herr => ?reported, if_pos rfl, immDstOk_opNumber hwf (.inl rfl) dst,
    immDstOk_opNumber hwf (.inr rfl) dst⟩
  case accepted => rw [encodeRecord_isOk_iff, failures_ifmt_eq_nil_iff]
  case reported => exact (mem_failures_ifmt_iff c n dst v e).mp (mem_failures_of_encodeRecord herr)

/-! ### The record of an instruction (R50, R67) -/

/-- The record of an R-format opcode other than JMP is packed as it stands. -/
theorem encodeRecord_register {c : Config} (hwf : c.wf = true) {o : OpName} (ho : o ≠ .jmp) (d a : RegNum)
    {b : OperandB} (hb : b.wf = true) :
    encodeRecord c (.rfmt (c.opNumber o) (.reg d) (.reg a) (operandB b)) =
      .ok (wordBytes c (packHi (c.opNumber o) d) (packOperands a b)) :=
  encodeRecord_rfmt a (rDestinationOk_reg d (mt (Config.opNumber_injective hwf) ho)) hb

/-- An accepted I-format record whose value is a byte is packed with that byte. -/
theorem encodeRecord_ifmt_byte {c : Config} {n : BitVec 5} {dst : Operand} (v : Byte) (hdst : immDstOk c n dst = true) :
    encodeRecord c (.ifmt n dst (.int v.toNat)) = .ok (wordBytes c (packHi n dst.dstBits) v) := by
  rw [encodeRecord_ifmt _ hdst, valueByte_of_emod (byte_emod v)]

/-- Settles O12: the record's destination is accepted for its opcode, and each field is packed as `encode` packs it. -/
theorem encoderBlockRefinesEncode : Obligations.EncoderBlockRefinesEncode := by
  intro c i hc hi
  cases i with
  | add d a b | addc d a b | sub d a b | subc d a b | cmpc d a b | xor d a b | nand d a b | or d a b | and d a b
  | shr d a b | shrc d a b =>
    exact encodeRecord_register hc (by nofun) d a hi
  | cmp a b | st a b => exact encodeRecord_register hc (by nofun) 0 a hi
  | ld d | rand d => exact encodeRecord_register hc (by nofun) d 0 (b := .reg 0) rfl
  | halt | nop => exact encodeRecord_register hc (by nofun) 0 0 (b := .reg 0) rfl
  | jmp a b | jeq a b | jgt a b | jge a b | jgts a b | jges a b => exact encodeRecord_rfmt a (if_pos rfl) hi
  | jmpi n | jeqi n | jgti n | jgei n | jgtsi n | jgesi n => exact encodeRecord_ifmt_byte n (if_pos rfl)
  | sti n => exact encodeRecord_ifmt_byte n (immDstOk_opNumber hc (.inr rfl) (.reg 0))
  | imm d n => exact encodeRecord_ifmt_byte n (immDstOk_opNumber hc (.inl rfl) (.reg d))

/-! ### Source statements (R76 to R84, R87) -/

/-- The record of an instruction names no label. -/
theorem resolveRecord_toRecord (c : Config) (labels : List (Ident × Nat)) (i : Instr) :
    resolveRecord labels (i.toRecord c) = .ok (i.toRecord c) := by
  cases i with
  | add d a b | addc d a b | sub d a b | subc d a b | cmpc d a b | xor d a b | nand d a b | or d a b | and d a b
  | shr d a b | shrc d a b =>
    exact resolveRecord_rfmt labels _ d a b
  | cmp a b | st a b => exact resolveRecord_rfmt labels _ 0 a b
  | jmp a b | jeq a b | jgt a b | jge a b | jgts a b | jges a b => cases b <;> rfl
  | ld | rand | halt | nop | jmpi | jeqi | jgti | jgei | jgtsi | jgesi | sti | imm => rfl

/-- A statement that is read as the record of an instruction assembles to the instruction's bytes. -/
theorem assembleStatement_of_toRecord {c : Config} (hc : c.wf = true) {op : Ident} {args : List Token}
    {xs : List Operand} {i : Instr} (hi : i.wf = true) (hargs : operandsOf args = .ok xs)
    (hrec : recordOf c op xs = .ok (i.toRecord c)) : assembleStatement c op args = .ok (encodeBytes c i) :=
  (assembleStatement_of_recordOf hargs hrec).trans
    (recordImage_of_resolveRecord (resolveRecord_toRecord c [] i) (encoderBlockRefinesEncode c i hc hi))

/-- The tokens of a two-operand source form are read as the record's operands. -/
theorem operandsOf_two (a : RegNum) (b : OperandB) : operandsOf [.reg a, tokenB b] = .ok [.reg a, operandB b] := by
  simp [operandsOf]

/-- The source form of an instruction is read as the instruction's record (R87). -/
theorem recordOf_sourceForm (c : Config) (i : Instr) :
    ∃ xs, operandsOf (sourceForm i).2 = .ok xs ∧ recordOf c (sourceForm i).1 xs = .ok (i.toRecord c) := by
  cases i with
  | add d a b | addc d a b | sub d a b | subc d a b | cmpc d a b | xor d a b | nand d a b | or d a b | and d a b
  | shr d a b | shrc d a b =>
    exact ⟨_, operandsOf_three d a b, recordOf_three c rfl _ _ _⟩
  | jmp a b | jeq a b | jgt a b | jge a b | jgts a b | jges a b =>
    exact ⟨_, operandsOf_two a b, recordOf_jump c rfl _⟩
  | cmp a b | st a b => exact ⟨_, operandsOf_two a b, rfl⟩
  | jmpi | jeqi | jgti | jgei | jgtsi | jgesi => exact ⟨_, rfl, recordOf_jump c rfl _⟩
  | ld | rand | halt | nop | sti | imm => exact ⟨_, rfl, rfl⟩

/-- Settles O13: the source form is read as the instruction's record, which the encoder block packs as `encode` does. -/
theorem sourceFormsAssemble : Obligations.SourceFormsAssemble := by
  intro c i hc hi
  obtain ⟨xs, hargs, hrec⟩ := recordOf_sourceForm c i
  exact assembleStatement_of_toRecord hc hi hargs hrec

/-- A jump with one register is read as the record of the register jump with literal 0 (R80). -/
theorem jumpRecord_register (c : Config) (k : Cond) (r : RegNum) :
    jumpRecord c k [.reg r] = .ok ((regJump k r (.lit 0)).toRecord c) := by
  cases k <;> rfl

/-- Settles O14: each pseudo-instruction is read as the record of the instruction that it stands for. -/
theorem pseudoInstructionsAssemble : Obligations.PseudoInstructionsAssemble := by
  intro c d r n hc
  refine ⟨?movRegister, ?movInteger, fun k op hop => ?jump, ?store⟩
  case movRegister => exact assembleStatement_of_toRecord hc (xs := [.reg d, .reg r]) rfl rfl rfl
  case movInteger => exact assembleStatement_of_toRecord hc (xs := [.reg d, .int n.toNat]) rfl rfl rfl
  case jump =>
    exact assembleStatement_of_toRecord hc (xs := [.reg r]) (regJump_wf k r _) rfl
      ((recordOf_jump c hop _).trans (jumpRecord_register c k r))
  case store => exact assembleStatement_of_toRecord hc (xs := [.reg r]) rfl rfl rfl

/-! ### Words of the spec (spec/95_test_vectors.md) -/

/-- Under the default numbering a word that `encode` writes for a well-formed instruction decodes to it. -/
theorem default_decode_of_encode {i : Instr} {hi lo : Byte} (hwf : i.wf = true)
    (h : encode Config.default i = (hi, lo)) : decode Config.default hi lo = .ok i := by
  have hdec := decodeReadsWhatEncodeWrites Config.default i Config.default_wf hwf
  rwa [h] at hdec

/-- Settles O3: each word is what `encode` writes for its instruction, so that it decodes to it. -/
theorem specWordsDecode : Obligations.SpecWordsDecode := by
  refine ⟨?_, ?_, ?_, ?_, ?_, ?_, ?_, ?_, ?_, ?_, ?_, ?_⟩ <;> exact default_decode_of_encode rfl rfl

end Sys2Proof.Claims
end

section
/-! What every step keeps (R7, R10, R14, R21, R23): the parts of the state that each effect of an instruction leaves alone,
said once per part, and from them the invariant of the machine's data and the writers of each part of the state. -/

namespace Sys2Proof.Claims

open Sys2Proof Sys2Proof.Machine

/-! ### What each effect leaves alone -/

/-- No effect changes the parameters. -/
theorem EffectBeforeFlags.cfg_eq {i : Instr} {s u : State} (h : EffectBeforeFlags i s u) : u.cfg = s.cfg := by
  cases h with
  | writesRegister | writesNothing | branches | loads | stores | draws | halts => simp

/-- No effect changes the registration (R23). -/
theorem EffectBeforeFlags.sameRegistration {i : Instr} {s u : State} (h : EffectBeforeFlags i s u) :
    sameRegistration s.devices u.devices = true := by
  cases h with
  | loads =>
    obtain ⟨-, -, -, -, -, -, hreg⟩ := memRead_spec s s.dataAddress
    exact hreg
  | stores _ v =>
    obtain ⟨-, -, -, -, -, hreg, -⟩ := memWrite_spec s s.dataAddress v
    exact hreg
  | writesRegister | writesNothing | branches | draws | halts => simp [sameRegistration_refl]

/-- Memory stays, or ST or STI writes one byte of it at `x[7]`, where no device stands (R37). -/
theorem EffectBeforeFlags.mem_cases {i : Instr} {s u : State} (h : EffectBeforeFlags i s u) :
    u.mem = s.mem ∨ ((i.opName = .st ∨ i.opName = .sti) ∧ s.hasDevice s.dataAddress = false ∧
      ∃ v, u.mem = s.mem.write s.dataAddress.toNat v) := by
  cases h with
  | stores hi v =>
    cases hdev : s.hasDevice s.dataAddress with
    | true => exact .inl (by rw [memWrite_of_device v hdev])
    | false => exact .inr ⟨hi, rfl, v, by rw [memWrite_of_noDevice v hdev]⟩
  | writesRegister | writesNothing | branches | loads | draws | halts => exact .inl (by simp)

/-- ST and STI use `x[7]` as an address (R153). -/
theorem addresses_of_store {i : Instr} (h : i.opName = .st ∨ i.opName = .sti) : addresses i = true := by
  rcases h with h | h <;> simp [addresses, h]

/-- The devices and the count of free values stay, or LD, ST or STI calls the devices at `x[7]`, or RAND takes one free
value. -/
theorem EffectBeforeFlags.outside_cases {i : Instr} {s u : State} (h : EffectBeforeFlags i s u) :
    (u.devices = s.devices ∧ u.draws = s.draws) ∨ (addresses i = true ∧ s.hasDevice s.dataAddress = true) ∨
      (i.opName = .rand ∧ u.devices = s.devices) := by
  cases h with
  | loads hi =>
    cases hdev : s.hasDevice s.dataAddress with
    | true => exact .inr (.inl ⟨by rw [hi]; rfl, rfl⟩)
    | false => exact .inl (by simp [memRead_of_noDevice hdev])
  | stores hi v =>
    cases hdev : s.hasDevice s.dataAddress with
    | true => exact .inr (.inl ⟨addresses_of_store hi, rfl⟩)
    | false => exact .inl (by simp [memWrite_of_noDevice v hdev])
  | draws hi => exact .inr (.inr ⟨by rw [hi]; rfl, rfl⟩)
  | writesRegister | writesNothing | branches | halts => exact .inl (by simp)

/-- No register changes but the destination (R14). -/
theorem EffectBeforeFlags.reg_eq {i : Instr} {s u : State} (h : EffectBeforeFlags i s u) {r : RegNum}
    (hr : destOf i ≠ some r) : u.reg r = s.reg r := by
  have hne {d : RegNum} (hd : destOf i = some d) : r ≠ d := fun e => hr (e ▸ hd)
  cases h with
  | writesRegister hd v => exact State.reg_setReg_of_ne s v (hne hd)
  | loads hi => exact (State.reg_setReg_of_ne _ _ (hne (hi ▸ rfl))).trans (reg_memRead s _ r)
  | draws hi => exact State.reg_setReg_of_ne _ _ (hne (hi ▸ rfl))
  | writesNothing | branches | stores | halts => simp

/-! ### The writers of each part of the state (R10) -/

/-- Settles O24: each part of the state is what one of the effects leaves, and the flag update touches none of them. -/
theorem eachPieceOfStateHasItsWriters : Obligations.EachPieceOfStateHasItsWriters := by
  intro i s t hexec
  have hhalted := exec_halted hexec
  have hpc := exec_pc hexec
  obtain ⟨u, f, hu, rfl⟩ := effectBeforeFlags_of_exec hexec
  refine ⟨fun hne => ?memory, fun hne => ?halted, fun hne => by_contra fun hnot => hne (hpc hnot),
    fun hne => ?devices, fun hne => ?draws⟩
  case memory =>
    rcases hu.mem_cases with hmem | ⟨hi, hno, v, hmem⟩
    · exact absurd (fun a => congrArg (Memory.read · a) hmem) hne
    · exact ⟨hi, hno, fun a ha => (congrArg (Memory.read · a) hmem).trans (Memory.read_write_of_ne _ v ha)⟩
  case halted =>
    by_contra hi
    rw [beq_eq_false_iff_ne.mpr hi, Bool.or_false] at hhalted
    exact hne hhalted
  case devices =>
    rcases hu.outside_cases with ⟨hsame, -⟩ | hcall | ⟨-, hsame⟩
    · exact absurd hsame hne
    · exact hcall
    · exact absurd hsame hne
  case draws =>
    rcases hu.outside_cases with ⟨-, hsame⟩ | hcall | ⟨hrand, -⟩
    · exact absurd hsame hne
    · exact .inr hcall
    · exact .inl hrand

/-! ### The step and the configuration (R7, R23) -/

/-- All that a step which answers a next state can be: nothing on a halted machine, else an instruction on the state after
the fetch, its pc advanced (R90, R103). -/
theorem step_cases {s t : State} (h : step s = .next t) :
    t = s ∨ ∃ i, exec i s.fetchWord.after.advancePc = .next t := by
  cases hrun : s.halted with
  | true => exact .inl (Host.Outcome.next.inj (h.symm.trans (step_of_halted hrun)))
  | false =>
    cases hdec : decode s.cfg s.fetchWord.hi s.fetchWord.lo with
    | error e => cases h.symm.trans (step_of_decode_error hrun hdec)
    | ok i => exact .inr ⟨i, (step_of_decode hrun hdec).symm.trans h⟩

/-- An effect on the state after the fetch keeps the parameters and the registration of the state before it. -/
theorem step_keeps_configuration {s t : State} (h : step s = .next t) :
    t.cfg = s.cfg ∧ sameRegistration s.devices t.devices = true := by
  obtain ⟨-, -, -, -, -, hcfg, hreg⟩ := fetchWord_spec s
  rcases step_cases h with rfl | ⟨i, hexec⟩
  · exact ⟨rfl, sameRegistration_refl _⟩
  · obtain ⟨u, f, hu, rfl⟩ := effectBeforeFlags_of_exec hexec
    exact ⟨hu.cfg_eq.trans hcfg, sameRegistration_trans hreg hu.sameRegistration⟩

/-- The same registration has the same addresses in the same order. -/
theorem map_addr_of_sameRegistration {ps qs : List Port} (h : sameRegistration ps qs = true) :
    qs.map Port.addr = ps.map Port.addr := by
  induction ps generalizing qs with
  | nil =>
    cases qs with
    | nil => rfl
    | cons => cases h
  | cons p ps ih =>
    cases qs with
    | nil => cases h
    | cons q qs =>
      simp only [sameRegistration, Bool.and_eq_true, beq_iff_eq] at h
      obtain ⟨⟨haddr, -⟩, hrest⟩ := h
      rw [List.map_cons, List.map_cons, haddr, ih hrest]

/-- Settles O25: the step keeps the registration, of which the addresses are a part. -/
theorem stepKeepsConfiguration : Obligations.StepKeepsConfiguration := by
  intro s t h
  obtain ⟨hcfg, hreg⟩ := step_keeps_configuration h
  exact ⟨hcfg, hreg, map_addr_of_sameRegistration hreg⟩

/-! ### The invariant of the machine's data (R21, R57 to R59) -/

/-- An effect keeps the canonical form of memory: it writes at most one byte, at an 8-bit address. -/
theorem EffectBeforeFlags.mem_wf {i : Instr} {s u : State} (h : EffectBeforeFlags i s u) (hwf : s.mem.wf = true) :
    u.mem.wf = true := by
  rcases h.mem_cases with hmem | ⟨-, -, v, hmem⟩
  · rwa [hmem]
  · rw [hmem]
    exact Memory.wf_write v hwf s.dataAddress.isLt

/-- Settles O26: the fetch keeps memory, the instruction keeps its canonical form, and the step keeps the parameters. -/
theorem stepKeepsInvariant : Obligations.StepKeepsInvariant := by
  intro s t hinv h
  obtain ⟨hmem, hcfg⟩ := hinv
  obtain ⟨hkeep, -⟩ := step_keeps_configuration h
  refine ⟨?memory, hkeep ▸ hcfg⟩
  obtain ⟨-, -, -, -, hfetch, -⟩ := fetchWord_spec s
  rcases step_cases h with rfl | ⟨i, hexec⟩
  · exact hmem
  · obtain ⟨u, f, hu, rfl⟩ := effectBeforeFlags_of_exec hexec
    exact hu.mem_wf (hfetch ▸ hmem)

/-- Settles O27: memory is empty, and the default parameters are within the limits. -/
theorem resetHasInvariant : Obligations.ResetHasInvariant := ⟨reset_mem_wf, Config.default_wf⟩

/-- Settles O28: a reset empties memory, and a load copies an image that ends inside the address space. -/
theorem hostOperationsKeepInvariant : Obligations.HostOperationsKeepInvariant := by
  intro s hinv
  obtain ⟨hmem, hcfg⟩ := hinv
  refine ⟨⟨reset_mem_wf, hcfg⟩, fun image t hload => ?load⟩
  obtain ⟨hlen, rfl⟩ := load_eq_some_iff.mp hload
  exact ⟨Memory.wf_copy hmem (by omega), hcfg⟩

/-- Settles O20, by induction on the number of steps. -/
theorem haltedRunChangesNothing : Obligations.HaltedRunChangesNothing := fun _ k h => core_run_of_halted h k

/-! ### Registers that an instruction does not read (R14) -/

/-- The later of two writes of one register stands; writes of two registers commute. The destination stands as an option,
as `destOf` gives it. -/
theorem setReg_setReg (s : State) (r d : RegNum) (v w : Byte) :
    (s.setReg r v).setReg d w = if some d = some r then s.setReg d w else (s.setReg d w).setReg r v := by
  by_cases h : d = r
  · subst h
    rw [if_pos rfl]
    exact State.eq_of_fields (Vector.set_set (hi := d.isLt) ..) rfl rfl rfl rfl rfl rfl rfl
  · rw [if_neg (fun e => h (Option.some.inj e))]
    have hne : r.toNat ≠ d.toNat := fun e => h (BitVec.eq_of_toNat_eq e).symm
    exact State.eq_of_fields (Vector.set_comm _ _ hne (hi := r.isLt) (hj := d.isLt)) rfl rfl rfl rfl rfl rfl rfl

/-- A data read does not depend on the registers. -/
theorem memRead_setReg (s : State) (r : RegNum) (v a : Byte) :
    (s.setReg r v).memRead a = ((s.memRead a).1, (s.memRead a).2.setReg r v) := by
  unfold State.memRead
  rw [show (s.setReg r v).hasDevice a = s.hasDevice a from rfl]
  cases s.hasDevice a <;> rfl

/-- A data write does not depend on the registers. -/
theorem memWrite_setReg (s : State) (r : RegNum) (v a w : Byte) :
    (s.setReg r v).memWrite a w = (s.memWrite a w).setReg r v := by
  unfold State.memWrite
  rw [show (s.setReg r v).hasDevice a = s.hasDevice a from rfl]
  cases s.hasDevice a <;> rfl

/-- A branch does not depend on the registers. -/
theorem branch_setReg (k : Cond) (x : Byte) (s : State) (r : RegNum) (v : Byte) :
    branch k x (s.setReg r v) = (branch k x s).setReg r v := by
  rw [branch_spec, branch_spec]
  rfl

/-- The operand values of an instruction do not depend on a register that it does not read. -/
theorem operands_setReg {i : Instr} {r a : RegNum} {b : OperandB} (hnot : ¬ reads i r)
    (hops : aluOperands i = some (a, b)) (s : State) (v : Byte) :
    (s.setReg r v).reg a = s.reg a ∧ (s.setReg r v).operandB b = s.operandB b := by
  constructor
  · exact State.reg_setReg_of_ne s v (by rintro rfl; exact hnot (.inl ⟨b, hops⟩))
  · cases b with
    | reg q => exact State.reg_setReg_of_ne s v (by rintro rfl; exact hnot (.inr (.inl ⟨a, hops⟩)))
    | lit => rfl

/-- The address of an instruction does not depend on a register that it does not read (R153). -/
theorem dataAddress_setReg {i : Instr} {r : RegNum} (hnot : ¬ reads i r) (haddr : addresses i = true) (s : State)
    (v : Byte) : (s.setReg r v).dataAddress = s.dataAddress :=
  State.reg_setReg_of_ne s v (by rintro rfl; exact hnot (.inr (.inr ⟨haddr, rfl⟩)))

/-- An ending that writes `x[d]` and the flags, on a state whose register `r` was changed before. -/
theorem next_setReg_setFlags {u t : State} {d : RegNum} {w : Byte} {f : Flags}
    (h : (.next ((u.setReg d w).setFlags f) : Result) = .next t) (r : RegNum) (v : Byte) :
    (.next (((u.setReg r v).setReg d w).setFlags f) : Result) = .next (if some d = some r then t else t.setReg r v) := by
  obtain rfl := Host.Outcome.next.inj h
  rw [setReg_setReg, apply_ite (State.setFlags · f)]
  rfl

/-- An ending that writes the flags alone, on a state whose register `r` was changed before. -/
theorem finish_setReg {u t : State} {out : Acc} {a b : Byte} (h : finish out a b u = .next t) (r : RegNum) (v : Byte) :
    finish out a b (u.setReg r v) = .next (if (none : Option RegNum) = some r then t else t.setReg r v) := by
  obtain rfl := finish_spec h
  rfl

/-- What an instruction does to the rest of the machine does not depend on a register that it does not read (R14). -/
theorem exec_setReg {i : Instr} {s t : State} {r : RegNum} (v : Byte) (hnot : ¬ reads i r) (h : exec i s = .next t) :
    exec i (s.setReg r v) = .next (if destOf i = some r then t else t.setReg r v) := by
  cases i with
  | add d a b | addc d a b | sub d a b | subc d a b | xor d a b | nand d a b | or d a b | and d a b | shr d a b
  | shrc d a b =>
    obtain ⟨ha, hb⟩ := operands_setReg hnot rfl s v
    change finishInto d _ _ _ (s.setReg r v) = _
    rw [ha, hb]
    exact next_setReg_setFlags h r v
  | cmp a b | cmpc _ a b =>
    obtain ⟨ha, hb⟩ := operands_setReg hnot rfl s v
    change finish _ _ _ (s.setReg r v) = _
    rw [ha, hb]
    exact finish_setReg h r v
  | jmp a b | jeq a b | jgt a b | jge a b | jgts a b | jges a b =>
    obtain ⟨ha, hb⟩ := operands_setReg hnot rfl s v
    change finish _ _ _ (branch _ _ (s.setReg r v)) = _
    rw [ha, hb, branch_setReg]
    exact finish_setReg h r v
  | jmpi | jeqi | jgti | jgei | jgtsi | jgesi =>
    change finish _ _ _ (branch _ _ (s.setReg r v)) = _
    rw [branch_setReg]
    exact finish_setReg h r v
  | ld d =>
    change finish _ _ _ (((s.setReg r v).memRead (s.setReg r v).dataAddress).2.setReg d _) = _
    rw [dataAddress_setReg hnot rfl, memRead_setReg]
    exact next_setReg_setFlags h r v
  | st a b =>
    obtain ⟨ha, hb⟩ := operands_setReg hnot rfl s v
    change finish _ _ _ ((s.setReg r v).memWrite (s.setReg r v).dataAddress _) = _
    rw [ha, hb, dataAddress_setReg hnot rfl, memWrite_setReg]
    exact finish_setReg h r v
  | sti n =>
    change finish _ _ _ ((s.setReg r v).memWrite (s.setReg r v).dataAddress _) = _
    rw [dataAddress_setReg hnot rfl, memWrite_setReg]
    exact finish_setReg h r v
  | imm | rand => exact next_setReg_setFlags h r v
  | halt => exact finish_setReg (u := s.setHalted) h r v
  | nop => exact finish_setReg h r v

/-- Settles O23: the effect of an instruction writes its destination only, and its operand values and its address are all
that it reads of the registers. -/
theorem registersReadAndWrittenAsListed : Obligations.RegistersReadAndWrittenAsListed := by
  refine ⟨fun i s t r hexec hr => ?written, fun i s t r v hnot hexec => exec_setReg v hnot hexec⟩
  obtain ⟨u, f, hu, rfl⟩ := effectBeforeFlags_of_exec hexec
  exact hu.reg_eq hr

/-! ### The conditions after CMP and SUB (R144) -/

/-- With `OVF_B_SOURCE = raw`, JGES after SUB is the formula of R98 on `b` itself, compared with the sign. -/
theorem condHolds_jges_after_sub_raw {d a : RegNum} {b : OperandB} {s u : State} (hu : exec (.sub d a b) s = .next u)
    (hsrc : s.cfg.ovfBSource = .raw) :
    condHolds .jges u.flags =
      ((neg (s.reg a) == neg (s.operandB b) && neg (s.reg a) != u.flags.sign) == u.flags.sign) := by
  obtain ⟨⟨t, ht, -, -, hsign, -, -, hover, -⟩, -⟩ := subWritesDifference s d a b
  obtain rfl : u = t := Host.Outcome.next.inj (hu.symm.trans ht)
  rw [condHolds, hover hsrc, hsign]

/-- CMP and SUB both answer a next state with the flags of SUB (R114). -/
theorem exec_cmp_or_sub_flags {i : Instr} {d a : RegNum} {b : OperandB} (hi : i = .cmp a b ∨ i = .sub d a b)
    (s : State) : ∃ t u, exec i s = .next t ∧ exec (.sub d a b) s = .next u ∧ t.flags = u.flags := by
  obtain ⟨u, hu⟩ := exec_isNext (.sub d a b) s
  rcases hi with rfl | rfl
  · obtain ⟨t, ht, -, hflags⟩ := compareFlags_spec a b true s
    exact ⟨t, u, (exec_cmp a b s).trans ht, hu, hflags d u hu⟩
  · exact ⟨u, u, hu, hu, rfl⟩

/-- Settles O36: the flags are SUB's, after which the conditions are the orders. -/
theorem conditionsAfterCompareAreOrders : Obligations.ConditionsAfterCompareAreOrders := by
  intro s d a b i hi
  obtain ⟨t, u, ht, hu, hflags⟩ := exec_cmp_or_sub_flags hi s
  obtain ⟨hjeq, hjge, hjgt, hsigned⟩ := condHolds_after_sub hu
  rw [← hflags] at hjeq hjge hjgt hsigned
  exact ⟨t, ht, hjeq, hjge, hjgt, hsigned, fun hsrc => hflags ▸ condHolds_jges_after_sub_raw hu hsrc⟩

end Sys2Proof.Claims
end

section
/-! The calls of devices (R36 to R38, R180): which device of the registration list a data read, a data write and a fetch call,
with which index of the free values, and what a read answers. Both list walks of the model are one walk that calls the
devices at the address. -/

namespace Sys2Proof.Claims

open Sys2Proof Sys2Proof.Machine

/-! ### The walk of the registration list (R36, R37) -/

/-- The registration list after a call of every device at `a`, each with the next index from `n` on. -/
def callPorts (a : Byte) (call : Nat → Device → Device) : List Port → Nat → List Port
  | [], _ => []
  | p :: ps, n =>
    if p.addr = a then { p with dev := call n p.dev } :: callPorts a call ps (n + 1) else p :: callPorts a call ps n

/-- A walk of reads calls the devices at the address. -/
theorem readPorts_devices (a : Byte) (ps : List Port) (n : Nat) :
    (readPorts a ps n).2.1 = callPorts a (fun n x => (readDevice n x).2) ps n := by
  induction ps generalizing n with
  | nil => rfl
  | cons p ps ih => by_cases h : p.addr = a <;> simp [readPorts, callPorts, h, ih]

/-- A walk of writes calls the devices at the address. -/
theorem writePorts_devices (a v : Byte) (ps : List Port) (n : Nat) :
    (writePorts a v ps n).1 = callPorts a (fun n => writeDevice n v) ps n := by
  induction ps generalizing n with
  | nil => rfl
  | cons p ps ih => by_cases h : p.addr = a <;> simp [writePorts, callPorts, h, ih]

/-- No device stands before the first. -/
@[simp] theorem callsBefore_zero (a : Byte) (ps : List Port) : callsBefore a ps 0 = 0 := rfl

/-- The first device counts for all later ones if it stands at the address. -/
theorem callsBefore_cons_succ (a : Byte) (p : Port) (ps : List Port) (j : Nat) :
    callsBefore a (p :: ps) (j + 1) = (if p.addr = a then 1 else 0) + callsBefore a ps j := by
  by_cases h : p.addr = a <;> simp [callsBefore, h, Nat.add_comm]

/-- All calls of a walk are those before the end of the list. -/
theorem callsBefore_length (a : Byte) (ps : List Port) :
    callsBefore a ps ps.length = ps.countP fun p => p.addr == a := by
  rw [callsBefore, List.take_length, List.countP_eq_length_filter]

/-- The device of place `j` is called, if it stands at the address, with the index of its place among the devices there;
every other entry stays (R36, R37). -/
theorem callPorts_getElem? (a : Byte) (call : Nat → Device → Device) (ps : List Port) (n j : Nat) :
    (callPorts a call ps n)[j]? =
      (ps[j]?).map fun p => if p.addr = a then { p with dev := call (n + callsBefore a ps j) p.dev } else p := by
  induction ps generalizing n j with
  | nil => rfl
  | cons p ps ih =>
    cases j with
    | zero => by_cases h : p.addr = a <;> simp [callPorts, h]
    | succ j => by_cases h : p.addr = a <;> simp [callPorts, callsBefore_cons_succ, h, ih, Nat.add_assoc]

/-- A walk of reads answers the OR of what the devices at the address answer (R36). -/
theorem readPorts_getLsbD (a : Byte) (ps : List Port) (n i : Nat) :
    (readPorts a ps n).1.getLsbD i = true ↔
      ∃ j p, ps[j]? = some p ∧ p.addr = a ∧ (readDevice (n + callsBefore a ps j) p.dev).1.getLsbD i = true := by
  induction ps generalizing n with
  | nil => simp [readPorts]
  | cons p ps ih =>
    -- the devices of the list are the first one and those of the rest, whose indices follow the first one's call
    rw [← Nat.or_exists_add_one]
    by_cases h : p.addr = a <;>
      simp [readPorts, callsBefore_cons_succ, h, ih, Nat.add_assoc]

/-- Of two devices at one address the earlier is called with the smaller index. -/
theorem callsBefore_lt {a : Byte} {ps : List Port} {j k : Nat} {p : Port} (hjk : j < k) (hj : ps[j]? = some p)
    (hp : p.addr = a) : callsBefore a ps j < callsBefore a ps k := by
  have hnext : callsBefore a ps (j + 1) = callsBefore a ps j + 1 := by
    simp [callsBefore, List.take_add_one, hj, hp]
  have hmono : callsBefore a ps (j + 1) ≤ callsBefore a ps k :=
    ((List.take_sublist_take_left hjk).filter _).length_le
  omega

/-- No device is called with an index past the last one that the walk uses up. -/
theorem callsBefore_le_length (a : Byte) (ps : List Port) (k : Nat) :
    callsBefore a ps k ≤ callsBefore a ps ps.length := by
  rw [callsBefore, callsBefore, List.take_length]
  exact ((List.take_sublist k ps).filter _).length_le

/-! ### Data reads and data writes (R36, R37) -/

/-- A device stands at the address exactly if the registration list has an entry there (R8). -/
theorem hasDevice_iff (s : State) (a : Byte) : s.hasDevice a = true ↔ ∃ p ∈ s.devices, p.addr = a := by
  simp [State.hasDevice]

/-- No device stands at the address exactly if every entry of the registration list stands elsewhere (R8). -/
theorem hasDevice_eq_false_iff (s : State) (a : Byte) : s.hasDevice a = false ↔ ∀ p ∈ s.devices, p.addr ≠ a := by
  simp [State.hasDevice]

/-- The state after a data read, with or without a device at the address. -/
theorem memRead_state (s : State) (a : Byte) :
    (s.memRead a).2 =
      { s with devices := callPorts a (fun n x => (readDevice n x).2) s.devices s.draws
               draws := s.draws + callsBefore a s.devices s.devices.length } := by
  rw [← readPorts_devices, callsBefore_length, ← readPorts_draws]
  cases h : s.hasDevice a with
  | true => rw [memRead_of_device h]
  | false => rw [memRead_of_noDevice h, readPorts_none s.draws h]

/-- The devices and the count of free values after a data write, with or without a device at the address. -/
theorem memWrite_devices_draws (s : State) (a v : Byte) :
    (s.memWrite a v).devices = callPorts a (fun n => writeDevice n v) s.devices s.draws ∧
      (s.memWrite a v).draws = s.draws + callsBefore a s.devices s.devices.length := by
  rw [← writePorts_devices, callsBefore_length, ← writePorts_draws a v]
  cases h : s.hasDevice a with
  | true =>
    rw [memWrite_of_device v h]
    exact ⟨rfl, rfl⟩
  | false =>
    rw [memWrite_of_noDevice v h, writePorts_none v s.draws h]
    exact ⟨rfl, rfl⟩

/-- The byte of a data read at a device's address, bit by bit (R36). -/
theorem memRead_getLsbD {s : State} {a : Byte} (h : s.hasDevice a = true) (i : Nat) :
    (s.memRead a).1.getLsbD i = true ↔
      ∃ j p, s.devices[j]? = some p ∧ p.addr = a ∧
        (readDevice (s.draws + callsBefore a s.devices j) p.dev).1.getLsbD i = true := by
  rw [memRead_of_device h]
  exact readPorts_getLsbD a s.devices s.draws i

/-- Settles O43: without a device the raw byte; else one walk of reads, which answers the OR and changes the devices and
the count only. -/
theorem dataReadDispatchesToDevices : Obligations.DataReadDispatchesToDevices := by
  intro s a
  refine ⟨fun hno => memRead_of_noDevice ((hasDevice_eq_false_iff s a).mpr hno), fun hdev =>
    ⟨fun i _ => memRead_getLsbD ((hasDevice_iff s a).mpr hdev) i, fun j => ?devices, ?draws, ?state⟩⟩
  case devices =>
    rw [memRead_state]
    exact callPorts_getElem? a _ s.devices s.draws j
  case draws => rw [memRead_state]
  case state => rw [memRead_state]

/-- Settles O44: without a device one byte of memory; else one walk of writes, which changes the devices and the count
only. -/
theorem dataWriteDispatchesToDevices : Obligations.DataWriteDispatchesToDevices := by
  intro s a v
  refine ⟨fun hno => ?memory, fun hdev => ⟨fun j => ?devices, ?state⟩⟩
  case memory =>
    rw [memWrite_of_noDevice v ((hasDevice_eq_false_iff s a).mpr hno)]
    exact ⟨fun _ hne => Memory.read_write_of_ne _ v hne, ⟨rfl, rfl, rfl⟩, fun hwf => Memory.read_write_self v hwf⟩
  case devices =>
    obtain ⟨hdevices, -⟩ := memWrite_devices_draws s a v
    rw [hdevices]
    exact callPorts_getElem? a _ s.devices s.draws j
  case state => rw [memWrite_of_device v ((hasDevice_iff s a).mpr hdev)]

/-! ### The indices of the draws (R8, R161, R180) -/

/-- RAND's next state: the next free byte in the register, with the flags of a non-ALU opcode (R161). -/
theorem exec_rand (d : RegNum) (s : State) :
    exec (.rand d) s =
      .next ((s.draw.2.setReg d (Config.draw s.draws)).setFlags ⟨false, false, true, false⟩) :=
  finishNonAlu_eq _

/-- Every device answers a read with the free byte of the call's index (D22). -/
theorem readDevice_answer (n : Nat) (x : Device) : (readDevice n x).1 = Config.draw n := by cases x <;> rfl

/-- A walk that calls the devices at the address, and uses up as many indices, takes them in the order of registration. -/
theorem takesIndices_of_callPorts {a : Byte} {call : Nat → Device → Device} {s t : State}
    (hdevices : t.devices = callPorts a call s.devices s.draws)
    (hdraws : t.draws = s.draws + callsBefore a s.devices s.devices.length) : TakesIndices a call s t :=
  ⟨fun j => hdevices ▸ callPorts_getElem? a call s.devices s.draws j, hdraws⟩

/-- A data read takes an index for each device at the address. -/
theorem memRead_takesIndices (s : State) (a : Byte) :
    TakesIndices a (fun n x => (readDevice n x).2) s (s.memRead a).2 :=
  takesIndices_of_callPorts (by rw [memRead_state]) (by rw [memRead_state])

/-- A data read at a device's address answers the draws of the indices that it takes. -/
theorem memRead_answersDraws {s : State} {a : Byte} (h : s.hasDevice a = true) : AnswersDraws a s (s.memRead a).1 := by
  intro i _
  simpa only [readDevice_answer] using memRead_getLsbD h i

/-- A store of `v` takes an index for each device at `x[7]`, and the flag update takes none. -/
theorem finish_memWrite_takesIndices (out : Acc) (a b v : Byte) (s : State) :
    ∃ t, finish out a b (s.memWrite s.dataAddress v) = .next t ∧
      TakesIndices s.dataAddress (fun n => writeDevice n v) s t := by
  obtain ⟨hdevices, hdraws⟩ := memWrite_devices_draws s s.dataAddress v
  exact ⟨_, finish_eq _ _ _ _, takesIndices_of_callPorts hdevices hdraws⟩

/-- A data read gives no index back. -/
theorem draws_le_memRead (s : State) (a : Byte) : s.draws ≤ (s.memRead a).2.draws := by
  rw [memRead_state]
  exact Nat.le_add_right _ _

/-- A fetch gives no index back. -/
theorem draws_le_fetch (s : State) (a : Byte) : s.draws ≤ (s.fetch a).2.draws := by
  cases h : s.cfg.fetchViaDevices with
  | true => simpa [State.fetch, h] using draws_le_memRead s a
  | false => rw [fetch_raw a h]

/-- The fetch of a word gives no index back. -/
theorem draws_le_fetchWord (s : State) : s.draws ≤ s.fetchWord.after.draws :=
  (draws_le_fetch s s.pc).trans (draws_le_fetch (s.fetch s.pc).2 (s.pc + 1))

/-- No effect gives an index back. -/
theorem EffectBeforeFlags.draws_le {i : Instr} {s u : State} (h : EffectBeforeFlags i s u) : s.draws ≤ u.draws := by
  cases h with
  | loads => exact draws_le_memRead s s.dataAddress
  | stores _ v =>
    obtain ⟨-, hdraws⟩ := memWrite_devices_draws s s.dataAddress v
    rw [hdraws]
    exact Nat.le_add_right _ _
  | writesRegister | writesNothing | branches | draws | halts => simp

/-- No step gives an index back. -/
theorem draws_le_of_step {s t : State} (h : step s = .next t) : s.draws ≤ t.draws := by
  rcases step_cases h with rfl | ⟨i, hexec⟩
  · exact le_rfl
  · obtain ⟨u, f, hu, rfl⟩ := effectBeforeFlags_of_exec hexec
    exact (draws_le_fetchWord s).trans hu.draws_le

/-- Settles O29: RAND takes the next index, every call of devices is the one walk, whose indices rise with the place in the
registration, and no step gives an index back. -/
theorem drawsAreNeverReused : Obligations.DrawsAreNeverReused := by
  refine ⟨fun s t => draws_le_of_step, fun s d => ?rand, fun s d => ?ld, fun s a b => ?st, fun s v => ?sti,
    fun s a => ⟨fun hvia => ?fetch, fun hraw => by rw [fetch_raw a hraw]⟩,
    fun a ps j k p hjk hj hp => ⟨callsBefore_lt hjk hj hp, callsBefore_le_length a ps k⟩⟩
  case rand => exact ⟨_, exec_rand d s, State.reg_setReg_self _ d _, rfl⟩
  case ld =>
    refine ⟨_, exec_ld d s, memRead_takesIndices s s.dataAddress, fun hdev => ?_⟩
    rw [State.reg_setFlags, State.reg_setReg_self]
    exact memRead_answersDraws hdev
  case st =>
    rw [exec_st, lowByte_adder]
    exact finish_memWrite_takesIndices _ _ _ _ s
  case sti => exact exec_sti v s ▸ finish_memWrite_takesIndices _ _ _ v s
  case fetch =>
    have hfetch : s.fetch a = s.memRead a := by simp [State.fetch, hvia]
    rw [hfetch]
    exact ⟨memRead_takesIndices s a, memRead_answersDraws⟩

/-- R-format decode of RAND reads the destination only (R66). -/
theorem decodeR_rand (c : Config) (d : RegNum) (lo : Byte) :
    decodeR c .rand (packHi (c.opNumber .rand) d) lo = .ok (.rand d) := by
  rw [decodeR, destField_packHi]

/-- Settles O53: the draw is the next free byte; the record of the source form has register 0 as both operands. -/
theorem randWritesFreeByte : Obligations.RandWritesFreeByte := by
  intro s d
  refine ⟨⟨_, exec_rand d s, State.reg_setReg_self _ d _, rfl, rfl, fun r hr => State.reg_setReg_of_ne s.draw.2 _ hr, rfl,
    rfl, fun _ => rfl, rfl, rfl⟩, ?form, fun lo => ?anyLowByte⟩
  case form =>
    exact writtenAs_of_recordOf (o := .rand) (a := 0) (b := .reg 0) (xs := [.reg d]) rfl rfl rfl nofun rfl
      (decodeR_rand _ d _)
  case anyLowByte => exact (decode_packHi (o := .rand) Config.default_wf rfl d lo).trans (decodeR_rand _ d lo)

/-! ### Stores, loads and fetches (R37, R38, R40, R42) -/

/-- ST and STI of the byte `v` write it at `x[7]` through device dispatch, and then the flags. -/
theorem exec_store {s t : State} {i : Instr} {v : Byte}
    (hi : i = .sti v ∨ ∃ a b, i = .st a b ∧ v = BitVec.ofNat 8 ((s.reg a).toNat + (s.operandB b).toNat))
    (h : exec i s = .next t) : ∃ f, t = (s.memWrite s.dataAddress v).setFlags f := by
  rcases hi with rfl | ⟨a, b, rfl, rfl⟩
  · exact ⟨_, finish_spec h⟩
  · rw [exec_st, lowByte_adder] at h
    exact ⟨_, finish_spec h⟩

/-- LD at an address without a device loads the raw byte (R36, R150). -/
theorem exec_ld_of_noDevice {t : State} (d : RegNum) (h : t.hasDevice (t.reg 7) = false) :
    ∃ u, exec (.ld d) t = .next u ∧ u.reg d = t.mem.read (t.reg 7).toNat := by
  refine ⟨_, exec_ld d t, ?_⟩
  rw [State.reg_setFlags, State.reg_setReg_self, memRead_of_noDevice h]

/-- Settles O51: without a device the byte stands in raw memory, which both the fetch and LD read; with one, memory stays. -/
theorem storeIsSeenByNextLoadAndFetch : Obligations.StoreIsSeenByNextLoadAndFetch := by
  intro s t i v d hwf hraw hi hexec
  obtain ⟨f, rfl⟩ := exec_store hi hexec
  have hraw' : ((s.memWrite s.dataAddress v).setFlags f).cfg.fetchViaDevices = false := by simpa using hraw
  constructor
  case left =>
    intro hno
    have hwrite := memWrite_of_noDevice (s := s) (a := s.dataAddress) v hno
    have hread : (s.memWrite s.dataAddress v).mem.read (s.reg 7).toNat = v := by
      rw [hwrite]
      exact Memory.read_write_self v hwf
    obtain ⟨u, hu, hud⟩ := exec_ld_of_noDevice (t := (s.memWrite s.dataAddress v).setFlags f) d
      (by rw [hwrite]; exact hno)
    refine ⟨?fetch, u, hu, ?load⟩
    case fetch =>
      rw [fetch_raw _ hraw']
      exact hread
    case load =>
      rw [hud, State.reg_setFlags, reg_memWrite]
      exact hread
  case right =>
    intro hdev x
    rw [fetch_raw x hraw', fetch_raw x hraw, memWrite_of_device (s := s) (a := s.dataAddress) v hdev]
    rfl

/-! ### The reference devices and the reset (R181 to R183, R190) -/

/-- Settles O45: the equations of the character device, and its entry of the reference configuration. -/
theorem characterDeviceRecordsWrites : Obligations.CharacterDeviceRecordsWrites :=
  fun n _ printed => ⟨rfl, readDevice_answer n (.charOut printed), rfl⟩

/-- No pixel of a clear frame is set (R183). -/
theorem clearFrame_getElem (x : Fin 16) (y : Fin 15) : clearFrame[x][y] = false := by
  simp [clearFrame]

/-- Setting a pixel sets it and no other (R183). -/
theorem setPixel_getElem (f : Frame) (x x' : Fin 16) (y y' : Fin 15) :
    (setPixel f x y)[x'][y'] = (f[x'][y'] || (decide (x'.val = x.val) && decide (y'.val = y.val))) := by
  by_cases hx : x'.val = x.val
  · obtain rfl := Fin.ext hx
    by_cases hy : y'.val = y.val
    · simp [setPixel, hy]
    · simp [setPixel, hy, Vector.getElem_set_ne _ _ (Ne.symm hy)]
  · simp [setPixel, hx, Vector.getElem_set_ne _ _ (Ne.symm hx)]

/-- A write of 0xFF displays the back-buffer and clears it (R183). -/
theorem writePixels_flush (n : Nat) (p : Pixels) : writePixels n 0xFF p = ⟨clearFrame, some p.back⟩ := rfl

/-- A write of any other byte displays nothing (R183). -/
theorem writePixels_shown {v : Byte} (hv : v ≠ 0xFF) (n : Nat) (p : Pixels) : (writePixels n v p).shown = p.shown := by
  rw [writePixels, if_neg hv]
  split <;> rfl

/-- The column that a byte names is its high nibble (R183). -/
theorem highNibble_toNat (v : Byte) : (v.extractLsb' 4 4).toNat = v.toNat / 16 := by
  have hv := v.isLt
  rw [BitVec.extractLsb'_toNat, Nat.shiftRight_eq_div_pow]
  omega

/-- A write of any other byte whose row the grid has sets the pixel that the byte names (R183). -/
theorem writePixels_back {v : Byte} (hv : v ≠ 0xFF) (hrow : v.toNat % 16 < 15) (n : Nat) (p : Pixels) (x : Fin 16)
    (y : Fin 15) :
    (writePixels n v p).back[x][y] =
      (p.back[x][y] || (decide (x.val = v.toNat / 16) && decide (y.val = v.toNat % 16))) := by
  have hlow : (v.extractLsb' 0 4).toNat = v.toNat % 16 := bField_toNat v
  have hhigh : (v.extractLsb' 4 4).toFin.val = v.toNat / 16 := highNibble_toNat v
  rw [writePixels, if_neg hv, dif_pos (hlow ▸ hrow), setPixel_getElem]
  simp only [hhigh, hlow]

/-- Settles O46: the flush, the write of a pixel, the read, and the device's entry of the reference configuration. -/
theorem pixelDeviceSetsAndFlushes : Obligations.PixelDeviceSetsAndFlushes := by
  refine ⟨fun n p => ?flush, fun n v p hv => ⟨writePixels_shown hv n p, fun hrow => writePixels_back hv hrow n p⟩,
    fun n p => readDevice_answer n (.pixelBuffer p), ⟨clearFrame, none⟩, rfl, clearFrame_getElem⟩
  case flush =>
    rw [writePixels_flush]
    exact ⟨rfl, clearFrame_getElem⟩

/-- A device in its initial state is the same registration (R190). -/
theorem sameDevice_initial (x : Device) : sameDevice x (initialDevice x) = true := by
  cases x <;> simp [initialDevice, sameDevice]

/-- Devices in their initial states at their old addresses are the same registration (R23). -/
theorem sameRegistration_initial (ps : List Port) :
    sameRegistration ps (ps.map fun p => { p with dev := initialDevice p.dev }) = true := by
  induction ps with
  | nil => rfl
  | cons p ps ih => simp [sameRegistration, sameDevice_initial, ih]

/-- Settles O58: the equations of a reset's devices, entry by entry of the registration. -/
theorem resetRestoresDevices : Obligations.ResetRestoresDevices :=
  ⟨fun _ => rfl, fun s => sameRegistration_initial s.devices, fun _ => rfl, fun _ => rfl, clearFrame_getElem,
    fun _ _ => rfl⟩

end Sys2Proof.Claims
end

section
/-! The two passes of the assembler (R85, R86): the addresses that pass 1 gives out are the places of the bytes that pass 2
emits, since a record has the same size in both. -/

namespace Sys2Proof.Claims

open Sys2Proof Sys2Proof.Machine

/-! ### Pass 1 (R74, R85) -/

/-- The bytes that placed records occupy. -/
def recordsSize (rs : List (Nat × Record)) : Nat := (rs.map fun r => recordSize r.2).sum

/-- A record adds its own size to those before it. -/
theorem recordsSize_cons (r : Nat × Record) (rs : List (Nat × Record)) :
    recordsSize (r :: rs) = recordSize r.2 + recordsSize rs := by
  simp [recordsSize]

/-- The order of the records does not matter for their size. -/
theorem recordsSize_reverse (rs : List (Nat × Record)) : recordsSize rs.reverse = recordsSize rs := by
  simp [recordsSize, List.sum_reverse]

/-- What pass 1 keeps from line to line: the running address is the size of the records placed, which fit the image, and no
label lies past it. -/
structure Placed (st : AsmState) : Prop where
  addr_eq : st.addr = recordsSize st.records
  addr_le : st.addr ≤ maxImage
  labels_le : ∀ p ∈ st.labels, p.2 ≤ st.addr

/-- Before the first line nothing is placed. -/
theorem placed_initial : Placed ⟨0, [], [], []⟩ := ⟨rfl, Nat.zero_le _, nofun⟩

/-- A line of pass 1 places nothing, or one record at the running address. -/
theorem Placed.after_passOneLine {c : Config} {n : Nat} {line : List Char} {st st' : AsmState} (hst : Placed st)
    (h : passOneLine c n line st = .ok st') : Placed st' := by
  obtain ⟨hplace, hlabels⟩ := passOneLine_ok h
  have hle : ∀ p ∈ st'.labels, p.2 ≤ st.addr := fun p hp => (hlabels p hp).elim (hst.labels_le p) Eq.le
  rcases hplace with ⟨haddr, hrecords⟩ | ⟨r, hfits, haddr, hrecords⟩
  · exact ⟨by rw [haddr, hrecords, hst.addr_eq], haddr ▸ hst.addr_le, haddr ▸ hle⟩
  · refine ⟨?size, haddr ▸ hfits, fun p hp => ?label⟩
    case size => rw [haddr, hrecords, recordsSize_cons, hst.addr_eq, Nat.add_comm]
    case label =>
      have hp := hle p hp
      omega

/-- Pass 1 keeps it over all lines. -/
theorem Placed.after_passOne {c : Config} {n : Nat} {lines : List (List Char)} {st st' : AsmState} (hst : Placed st)
    (h : passOne c n lines st = .ok st') : Placed st' := by
  induction lines generalizing n st with
  | nil =>
    cases h
    exact hst
  | cons line lines ih =>
    unfold passOne at h
    split at h
    next => cases h
    next hline => exact ih (hst.after_passOneLine hline) h

/-! ### Pass 2 (R85, R86) -/

/-- Resolving the labels of a record keeps its size. -/
theorem recordSize_of_resolveRecord {labels : List (Ident × Nat)} {r r' : Record}
    (h : resolveRecord labels r = .ok r') : recordSize r' = recordSize r := by
  cases r with
  | rfmt | ifmt | raw =>
    rw [resolveRecord] at h
    split at h <;> cases h
    rfl

/-- The encoder block emits as many bytes as the record's size says. -/
theorem length_of_encodeRecord {c : Config} {r : Record} {bs : List Byte} (h : encodeRecord c r = .ok bs) :
    bs.length = recordSize r := by
  rw [encodeRecord_of_failures_nil (encodeRecord_isOk_iff.mp ⟨bs, h⟩)] at h
  cases h
  cases r <;> rfl

/-- The image of a record is as long as the record's size says. -/
theorem length_of_recordImage {c : Config} {labels : List (Ident × Nat)} {r : Record} {bs : List Byte}
    (h : recordImage c labels r = .ok bs) : bs.length = recordSize r := by
  unfold recordImage at h
  split at h
  next => cases h
  next r' hres =>
    split at h
    next => cases h
    next henc =>
      cases h
      exact (length_of_encodeRecord henc).trans (recordSize_of_resolveRecord hres)

/-- The image of pass 2 is as long as its records. -/
theorem length_of_passTwo {c : Config} {labels : List (Ident × Nat)} {rs : List (Nat × Record)} {image : List Byte}
    (h : passTwo c labels rs = .ok image) : image.length = recordsSize rs := by
  induction rs generalizing image with
  | nil =>
    cases h
    rfl
  | cons r rs ih =>
    unfold passTwo at h
    split at h
    next => cases h
    next hrecord =>
      split at h
      next => cases h
      next hrest =>
        cases h
        rw [List.length_append, length_of_recordImage hrecord, ih hrest, recordsSize_cons]

/-- An assembly that succeeds is a pass 1 and a pass 2 that succeed. -/
theorem passes_of_assemble {c : Config} {source : List Char} {image : List Byte} (h : assemble c source = .ok image) :
    ∃ st, passOne c 1 (sourceLines source []) ⟨0, [], [], []⟩ = .ok st ∧
      passTwo c st.labels st.records.reverse = .ok image := by
  unfold assemble at h
  split at h
  next => cases h
  next st hone => exact ⟨st, hone, h⟩

/-- Settles O60: both passes count the same records. -/
theorem imageIsAsLongAsRunningAddress : Obligations.ImageIsAsLongAsRunningAddress := by
  intro c source image h
  obtain ⟨st, hone, htwo⟩ := passes_of_assemble h
  have hst : Placed st := placed_initial.after_passOne hone
  have hlen : image.length = st.addr := by rw [length_of_passTwo htwo, recordsSize_reverse, hst.addr_eq]
  exact ⟨hlen ▸ hst.addr_le, st, hone, hlen, hlen ▸ hst.labels_le⟩

end Sys2Proof.Claims
end
